-- ==== Sys2Proof/Word.lean ====
section
/-!
DEFINITION. The machine's words. Every register, instruction, port transfer and the program counter is
one byte (spec/20_memory.md R34); an output fragment is one Unicode code point (R47).
-/

namespace Sys2Proof

/-- An 8-bit value, bit 0 the least significant (spec/00_scope.md R6, R7). -/
abbrev Byte := BitVec 8

/-- A Unicode code point, U+0000 to U+10FFFF, in 21 bits (spec/20_memory.md R47). -/
abbrev CodePoint := BitVec 21

end Sys2Proof
end

