-- ==== Sys2Proof/Syntax.lean ====
section
/-!
DEFINITION. The instructions of spec/opcode_table.json. The table's 80 rows are 25 constructors: LIT with its
literal, the eight jumps, the four operand forms of MOV with their registers, the eight operations, and the four
groups of illegal bytes, which the table lists under the mnemonic ILLEGAL (assumption 17).
-/

namespace Sys2Proof

/-- The six general registers; there is no register 6 or 7 (spec/10_state.md R10). -/
inductive Reg where
  | x0 | x1 | x2 | x3 | x4 | x5
  deriving DecidableEq, Repr

/-- One decoded instruction (spec/30_encoding.md R69). -/
inductive Instr where
  /-- `LIT n`, the 6-bit literal into `x[0]` (spec/40_load_literal.md R80). -/
  | lit (imm : BitVec 6)
  /-- Predicate `000`, never (spec/41_conditional_jump.md R94). -/
  | jnv
  /-- Predicate `001`, equal-zero (R95). -/
  | jez
  /-- Predicate `010`, greater-than-zero (R96). -/
  | jgz
  /-- Predicate `011`, greater-or-equal-zero (R97). -/
  | jgez
  /-- Predicate `100`, always (R98). -/
  | jmp
  /-- Predicate `101`, not-equal-zero (R99). -/
  | jnz
  /-- Predicate `110`, less-or-equal-zero (R100). -/
  | jlez
  /-- Predicate `111`, less-than-zero (R101). -/
  | jlz
  /-- `MOV xs -> xd` (spec/42_move.md R111). -/
  | movRegReg (src dst : Reg)
  /-- `MOV in -> xd` (R112). -/
  | movInReg (dst : Reg)
  /-- `MOV xs -> out` (R113). -/
  | movRegOut (src : Reg)
  /-- `MOV in -> out` (R114). -/
  | movInOut
  /-- Operation `000` (spec/43_arithmetic.md R123). -/
  | add
  /-- Operation `001` (R124). -/
  | and
  /-- Operation `010` (R125). -/
  | or
  /-- Operation `011` (R126). -/
  | xor
  /-- Operation `100` (R127). -/
  | sub
  /-- Operation `101` (R128). -/
  | nand
  /-- Operation `110` (R129). -/
  | nor
  /-- Operation `111` (R130). -/
  | xnor
  /-- A byte 0x48..0x7F (spec/30_encoding.md R67, spec/41_conditional_jump.md R102). -/
  | illegalConditional
  /-- A byte 0xB8..0xBF (R67, spec/42_move.md R117). -/
  | illegalMoveFrom
  /-- A byte 0x87, 0x8F, 0x97, 0x9F, 0xA7, 0xAF or 0xB7 (R67, spec/42_move.md R117). -/
  | illegalMoveTo
  /-- A byte 0xC8..0xFF (R67, spec/43_arithmetic.md R133). -/
  | illegalArithmetic
  deriving DecidableEq, Repr

end Sys2Proof
end

