-- ==== Sys2Proof/WellFormed.lean ====
section
/-!
DEFINITION. Which terms of Instr are instructions that a byte can be assembled from. The literal and the
registers are bounded by their types; what is left to check is that the term is no decode error, since a decode
error is the encoding of nothing (spec/30_encoding.md R72).
-/

namespace Sys2Proof

/-- A legally constructed instruction: one of the 129 of spec/30_encoding.md R75, not one of the four decode
errors of R67. -/
def Instr.wellFormed : Instr → Bool
  | .lit _ => true
  | .jnv => true
  | .jez => true
  | .jgz => true
  | .jgez => true
  | .jmp => true
  | .jnz => true
  | .jlez => true
  | .jlz => true
  | .movRegReg _ _ => true
  | .movInReg _ => true
  | .movRegOut _ => true
  | .movInOut => true
  | .add => true
  | .and => true
  | .or => true
  | .xor => true
  | .sub => true
  | .nand => true
  | .nor => true
  | .xnor => true
  | .illegalConditional => false
  | .illegalMoveFrom => false
  | .illegalMoveTo => false
  | .illegalArithmetic => false

end Sys2Proof
end

