-- ==== Sys2Proof/Decode.lean ====
section
/-!
DEFINITION. The decoder and the encoder (spec/30_encoding.md R60 to R72). The decoder is a total function of one
byte; a byte that is no instruction decodes to the constructor that names its error.
-/

namespace Sys2Proof

/-! ### The fields of an instruction byte (R60) -/

/-- `b[7:6]`, the class. -/
def classField (b : Byte) : BitVec 2 := b.extractLsb' 6 2

/-- `b[5:3]`: the source selector, or a field that must be zero. -/
def midField (b : Byte) : BitVec 3 := b.extractLsb' 3 3

/-- `b[2:0]`: the destination selector, the predicate or the operation. -/
def lowField (b : Byte) : BitVec 3 := b.extractLsb' 0 3

/-- `b[5:0]`, the literal. -/
def imm6Field (b : Byte) : BitVec 6 := b.extractLsb' 0 6

/-! ### Decoding -/

/-- What a selector of a Move names (R66): a register, the port of its side, or nothing. -/
inductive Selected where
  | reg (r : Reg)
  | port
  | invalid
  deriving DecidableEq, Repr

/-- The selector map of R66, by the selector's three bits. -/
def selected (sel : BitVec 3) : Selected :=
  match sel.getLsbD 2, sel.getLsbD 1, sel.getLsbD 0 with
  | false, false, false => .reg .x0
  | false, false, true => .reg .x1
  | false, true, false => .reg .x2
  | false, true, true => .reg .x3
  | true, false, false => .reg .x4
  | true, false, true => .reg .x5
  | true, true, false => .port
  | true, true, true => .invalid

/-- The jump that a predicate field selects (R63, spec/41_conditional_jump.md R91). -/
def decodeJump (p : BitVec 3) : Instr :=
  match p.getLsbD 2, p.getLsbD 1, p.getLsbD 0 with
  | false, false, false => .jnv
  | false, false, true => .jez
  | false, true, false => .jgz
  | false, true, true => .jgez
  | true, false, false => .jmp
  | true, false, true => .jnz
  | true, true, false => .jlez
  | true, true, true => .jlz

/-- The operation that an operation field selects (R65, spec/43_arithmetic.md R122). -/
def decodeArith (o : BitVec 3) : Instr :=
  match o.getLsbD 2, o.getLsbD 1, o.getLsbD 0 with
  | false, false, false => .add
  | false, false, true => .and
  | false, true, false => .or
  | false, true, true => .xor
  | true, false, false => .sub
  | true, false, true => .nand
  | true, true, false => .nor
  | true, true, true => .xnor

/-- The Move of two selectors, the source checked first (R64, R70; decision D3). -/
def decodeMove (s d : BitVec 3) : Instr :=
  match selected s, selected d with
  | .invalid, _ => .illegalMoveFrom
  | .reg _, .invalid => .illegalMoveTo
  | .port, .invalid => .illegalMoveTo
  | .reg r, .reg q => .movRegReg r q
  | .reg r, .port => .movRegOut r
  | .port, .reg q => .movInReg q
  | .port, .port => .movInOut

/-- `Decode(b)`, the checks in the order of R70. -/
def decode (b : Byte) : Instr :=
  match (classField b).getLsbD 1, (classField b).getLsbD 0 with
  | false, false => .lit (imm6Field b)
  | false, true => if midField b ≠ 0#3 then .illegalConditional else decodeJump (lowField b)
  | true, false => decodeMove (midField b) (lowField b)
  | true, true => if midField b ≠ 0#3 then .illegalArithmetic else decodeArith (lowField b)

/-! ### Encoding -/

/-- `sel(Reg(k)) = k` (R72). -/
def Reg.number : Reg → Byte
  | .x0 => 0
  | .x1 => 1
  | .x2 => 2
  | .x3 => 3
  | .x4 => 4
  | .x5 => 5

/-- `sel(InPort) = sel(OutPort) = 6` (R72). -/
def portNumber : Byte := 6

/-- `Encode` of a Move: `0x80 + 8*s + d` (R64, R72). -/
def encodeMove (s d : Byte) : Byte := 0x80 + 8 * s + d

/-- `Encode(i)` (R62 to R65, R72). It is defined on no decode error. -/
def encode : Instr → Option Byte
  | .lit imm => some (imm.setWidth 8)
  | .jnv => some 0x40
  | .jez => some 0x41
  | .jgz => some 0x42
  | .jgez => some 0x43
  | .jmp => some 0x44
  | .jnz => some 0x45
  | .jlez => some 0x46
  | .jlz => some 0x47
  | .movRegReg s d => some (encodeMove s.number d.number)
  | .movInReg d => some (encodeMove portNumber d.number)
  | .movRegOut s => some (encodeMove s.number portNumber)
  | .movInOut => some (encodeMove portNumber portNumber)
  | .add => some 0xC0
  | .and => some 0xC1
  | .or => some 0xC2
  | .xor => some 0xC3
  | .sub => some 0xC4
  | .nand => some 0xC5
  | .nor => some 0xC6
  | .xnor => some 0xC7
  | .illegalConditional => none
  | .illegalMoveFrom => none
  | .illegalMoveTo => none
  | .illegalArithmetic => none

/-! ### The table's words -/

/-- The instruction of a row of spec/opcode_table.json. Every instruction is one byte (R60), so the row's bits
are that byte; a row of any other width would be no instruction of this machine. -/
def decodeTableWord (nbits w : Nat) : Option Instr :=
  if nbits = 8 then some (decode (BitVec.ofNat 8 w)) else none

end Sys2Proof
end

