-- ==== Sys2Proof/Config.lean ====
section
/-!
DEFINITION. The parameters of spec/00_scope.md R5 that are fixed for every machine. The parameters that a
launch chooses (the program, its length, the input, the input mode, STOP_ON_UTF8_ERROR, Utf8Valid) are fields of State.
The spec leaves no value undefined after an instruction, so there is no free value here.
-/

namespace Sys2Proof.Config

/-- The least PLEN a load accepts (R5, spec/20_memory.md R32). -/
def minProgramLength : Nat := 1

/-- The greatest PLEN a load accepts (R5, spec/20_memory.md R32). -/
def maxProgramLength : Nat := 255

/-- ACCMAX: the most bytes the output accumulator holds during a write (R5). -/
def accMax : Nat := 4

/-- The value R5 gives STOP_ON_UTF8_ERROR, a parameter by decision D9 (assumption 12). -/
def stopOnUtf8Default : Bool := true

end Sys2Proof.Config
end

