-- ==== Sys2Proof/Machine/Utf8Table.lean ====
section
/-!
DEFINITION. The predicate `Utf8Valid`, a parameter of the machine (spec/00_scope.md R5, spec/10_state.md R24), as
plain data: a table of rows of byte ranges, the form in which spec/20_memory.md R49 gives its default. The output
port asks the predicate of sequences of one to four bytes alone, and every predicate on those is that of some table
(Sys2Proof/Laws/Utf8.lean).
-/

namespace Sys2Proof.Machine

/-- A row: the least and the greatest value of each byte of a sequence. -/
abbrev Utf8Row := List (Byte × Byte)

/-- A table: the sequences that one of its rows admits. -/
abbrev Utf8Table := List Utf8Row

/-- `lo <= b <= hi`, both bounds inclusive. -/
def between (lo hi b : Byte) : Bool := decide (lo.toNat ≤ b.toNat) && decide (b.toNat ≤ hi.toNat)

/-- The row admits the sequence: as many bytes as columns, each in its range. -/
def Utf8Row.admits : Utf8Row → List Byte → Bool
  | [], [] => true
  | (lo, hi) :: row, b :: a => between lo hi b && Utf8Row.admits row a
  | [], _ :: _ => false
  | _ :: _, [] => false

/-- `Utf8Valid(a)` by a table. -/
def Utf8Table.accepts (t : Utf8Table) (a : List Byte) : Bool := t.any fun row => row.admits a

/-- The table of R49, row by row: the value R5 gives the parameter (decision D7; assumption 11). -/
def standardUtf8 : Utf8Table :=
  [ [(0x00, 0x7F)],
    [(0xC2, 0xDF), (0x80, 0xBF)],
    [(0xE0, 0xE0), (0xA0, 0xBF), (0x80, 0xBF)],
    [(0xE1, 0xEC), (0x80, 0xBF), (0x80, 0xBF)],
    [(0xED, 0xED), (0x80, 0x9F), (0x80, 0xBF)],
    [(0xEE, 0xEF), (0x80, 0xBF), (0x80, 0xBF)],
    [(0xF0, 0xF0), (0x90, 0xBF), (0x80, 0xBF), (0x80, 0xBF)],
    [(0xF1, 0xF3), (0x80, 0xBF), (0x80, 0xBF), (0x80, 0xBF)],
    [(0xF4, 0xF4), (0x80, 0x8F), (0x80, 0xBF), (0x80, 0xBF)] ]

/-- `Utf8Valid` by R49. -/
def utf8Valid (a : List Byte) : Bool := standardUtf8.accepts a

end Sys2Proof.Machine
end

