-- ==== Sys2Proof/Machine/State.lean ====
section
/-!
DEFINITION. The whole state of the block as plain data (spec/10_state.md R26), the launch parameters a step
reads (R24), what crosses between host and core (spec/00_scope.md R9), and the reset state.
-/

namespace Sys2Proof.Machine

/-- The register file: six independent 8-bit registers, none hard-wired (spec/10_state.md R10). -/
structure RegFile where
  x0 : Byte
  x1 : Byte
  x2 : Byte
  x3 : Byte
  x4 : Byte
  x5 : Byte
  deriving DecidableEq, Repr

/-- The program store: (index, byte) cells, indices strictly rising. An index that is not listed holds
nothing (spec/20_memory.md R31, R43; assumption 6). -/
abbrev Memory := List Host.Cell

/-- The canonical form of the program store: the indices rise strictly. -/
def Memory.wf : Memory → Bool
  | [] => true
  | [_] => true
  | c :: d :: rest => decide (c.1 < d.1) && Memory.wf (d :: rest)

/-- INPUT_MODE (spec/00_scope.md R5, spec/20_memory.md R38, R39). -/
inductive InputMode where
  | buffered
  | interactive
  deriving DecidableEq, Repr

/-- The controller's mode (spec/10_state.md R19, spec/45_run_driver.md R150). -/
inductive RunMode where
  | idle
  | singleStep
  | runToCompletion
  deriving DecidableEq, Repr

/-- The 13 error kinds of spec/60_exceptions.md R170, in its order. Those that R173, R174 and R175 say cannot
occur are named here and have no cause anywhere in the model (assumption 16). -/
inductive ErrorKind where
  | programIsTooLong
  | programIsEmpty
  | instructionNotU8
  | wrongRegisterAmount
  | invalidConditional
  | invalidArithmetic
  | invalidMoveFrom
  | invalidMoveTo
  | conditionalUnreachable
  | arithmeticUnreachable
  | prefixUnreachable
  | notEnoughInput
  | invalidUtf8Lexeme
  deriving DecidableEq, Repr

/-- The outcome of the latest step (spec/10_state.md R20). -/
inductive StepResult where
  /-- No step taken since reset or load. -/
  | none
  | cont
  | halted
  | suspendedForInput
  | error (kind : ErrorKind)
  deriving DecidableEq, Repr

/-- The register and PC snapshot the host is given after each completed step, with the step's result
(spec/45_run_driver.md R162). -/
structure Snapshot where
  x : RegFile
  pc : Byte
  result : StepResult
  deriving DecidableEq, Repr

/-- The host's commands (spec/45_run_driver.md R150). -/
inductive Command where
  | load (prog input0 : List Byte) (inputMode : InputMode)
  | reset
  | stepOnce
  | runToCompletion
  | appendInput (b : Byte)
  | abort
  deriving DecidableEq, Repr

/-- The machine: the state of spec/10_state.md R26, then the launch parameters of R24 (assumption 3), then the
host's side of the interfaces of spec/00_scope.md R9, which are the model's own fields. -/
structure State where
  /-- `x[0..5]` (R10). -/
  x : RegFile
  /-- The program counter, a 0-based instruction index (R14, R16). -/
  pc : Byte
  /-- The pending output accumulator, in the order written (R22). -/
  acc : List Byte
  /-- The input buffer, element 0 delivered next (R23). -/
  inbuf : List Byte
  /-- The controller's mode (R19). -/
  mode : RunMode
  /-- The outcome of the latest step (R20). -/
  result : StepResult
  /-- A checked program is in the store (R21). -/
  loaded : Bool
  /-- `prog` (R24, spec/20_memory.md R31). -/
  prog : Memory
  /-- `PLEN` (R24). -/
  plen : Nat
  /-- The supplied input, kept for reset (R24). -/
  input0 : List Byte
  /-- `INPUT_MODE` (R24). -/
  inputMode : InputMode
  /-- `STOP_ON_UTF8_ERROR` (R24, spec/45_run_driver.md R156; assumption 12). -/
  stopOnUtf8 : Bool
  /-- `Utf8Valid` (R24, spec/44_step_engine.md R140), as a table (spec/20_memory.md R49; assumption 11). -/
  utf8Table : Utf8Table
  /-- The model's own: the fragments delivered since the last reset or load, oldest first (assumption 8). -/
  out : List CodePoint
  /-- The model's own: the latest snapshot given to the host (R162; assumption 9). -/
  snapshot : Option Snapshot
  /-- The model's own: the host's actions to come, one for each boundary between steps, `none` where the host
  issues no command and the core moves (assumption 2). -/
  sched : List (Option Command)
  deriving DecidableEq, Repr

/-- The one fault. It is no error of the machine: the spec's errors are results of a step, and the model takes
them as next states. -/
inductive Fault where
  /-- Raised by the fetch alone, when `pc < PLEN` and the program store lists no byte at `pc`. A load lists every
  index below PLEN, so no run from reset meets it. Safe: the model stops where the machine has no such state
  (assumption 6). -/
  | programHole
  deriving DecidableEq, Repr

/-- The refusals. -/
inductive Refusal where
  /-- An instruction the model gives no meaning. Nothing raises it: every instruction has its meaning. Safe. -/
  | notModelled (mnemonic : String)
  deriving DecidableEq, Repr

/-- The state before the first load: `loaded` false, Idle, no result, registers and pc 0, everything else empty
(spec/10_state.md R25, spec/70_reset_and_hazards.md R201). The input mode before a load is assumption 4. -/
def State.reset : State where
  x := ⟨0, 0, 0, 0, 0, 0⟩
  pc := 0
  acc := []
  inbuf := []
  mode := .idle
  result := .none
  loaded := false
  prog := []
  plen := 0
  input0 := []
  inputMode := .buffered
  stopOnUtf8 := Config.stopOnUtf8Default
  utf8Table := standardUtf8
  out := []
  snapshot := none
  sched := []

end Sys2Proof.Machine
end

