-- ==== Sys2Proof/Machine/Ops.lean ====
section
/-!
DEFINITION. The named operations on the state: registers, program counter, program store, input port, and the
ways a step ends (spec/00_scope.md R8), raising an error among them (spec/60_exceptions.md R183).
-/

namespace Sys2Proof.Machine

/-! ### Registers and program counter -/

/-- `x[i]` (spec/00_scope.md R8). -/
def RegFile.read (x : RegFile) : Reg → Byte
  | .x0 => x.x0
  | .x1 => x.x1
  | .x2 => x.x2
  | .x3 => x.x3
  | .x4 => x.x4
  | .x5 => x.x5

/-- `x[i] <- v` (spec/00_scope.md R8). -/
def RegFile.write (x : RegFile) (r : Reg) (v : Byte) : RegFile :=
  match r with
  | .x0 => { x with x0 := v }
  | .x1 => { x with x1 := v }
  | .x2 => { x with x2 := v }
  | .x3 => { x with x3 := v }
  | .x4 => { x with x4 := v }
  | .x5 => { x with x5 := v }

/-- All six registers 0 (spec/70_reset_and_hazards.md R200). -/
def RegFile.zero : RegFile := ⟨0, 0, 0, 0, 0, 0⟩

/-- `x[i] <- v` on the machine. -/
def writeReg (s : State) (r : Reg) (v : Byte) : State := { s with x := s.x.write r v }

/-- `pc <- t`. -/
def setPc (s : State) (t : Byte) : State := { s with pc := t }

/-- `pc <- pc + 1` (spec/10_state.md R15; assumption 7). -/
def advancePc (s : State) : State := setPc s (s.pc + 1)

/-! ### The program store -/

/-- The byte at an index, or nothing (spec/20_memory.md R31, R43). -/
def Memory.read : Memory → Nat → Option Byte
  | [], _ => none
  | c :: rest, a => if c.1 = a then some c.2 else Memory.read rest a

/-- The store with one byte placed, indices kept rising. No rule of the machine writes the store
(spec/20_memory.md R33); this is the host's, outside the machine. -/
def Memory.write : Memory → Nat → Byte → Memory
  | [], a, b => [(a, b)]
  | c :: rest, a, b =>
    if a < c.1 then (a, b) :: c :: rest
    else if a = c.1 then (a, b) :: rest
    else c :: Memory.write rest a b

/-- The cells of a sequence of bytes whose first byte is at index `k`. -/
def Memory.cellsFrom (k : Nat) : List Byte → Memory
  | [] => []
  | b :: bs => (k, b) :: Memory.cellsFrom (k + 1) bs

/-- The store a load fills: byte `i` of the program at index `i` (spec/20_memory.md R31). -/
def Memory.ofBytes (bytes : List Byte) : Memory := Memory.cellsFrom 0 bytes

/-! ### The input port -/

/-- `InPop()` (spec/20_memory.md R37): the next byte and the state without it, or nothing. -/
def inPop (s : State) : Option (Byte × State) :=
  match s.inbuf with
  | [] => none
  | b :: rest => some (b, { s with inbuf := rest })

/-! ### The errors -/

/-- The codes of spec/60_exceptions.md R170, a numbering for convenience (decision D14). -/
def ErrorKind.code : ErrorKind → Nat
  | .programIsTooLong => 1
  | .programIsEmpty => 2
  | .instructionNotU8 => 3
  | .wrongRegisterAmount => 4
  | .invalidConditional => 5
  | .invalidArithmetic => 6
  | .invalidMoveFrom => 7
  | .invalidMoveTo => 8
  | .conditionalUnreachable => 9
  | .arithmeticUnreachable => 10
  | .prefixUnreachable => 11
  | .notEnoughInput => 12
  | .invalidUtf8Lexeme => 13

/-- The column "fatal" of spec/60_exceptions.md R170: every kind but the output framing error (R182). -/
def ErrorKind.fatal (k : ErrorKind) : Bool := decide (k ≠ .invalidUtf8Lexeme)

/-! ### How a step ends -/

/-- The controller's mode after a step with result `r`: a single step returns to Idle (spec/45_run_driver.md
R153); a run goes on after `Continue` and, unless STOP_ON_UTF8_ERROR, after `invalid-utf8-lexeme`, and returns to
Idle after any other result (R154, R156 to R158). -/
def modeAfter (m : RunMode) (stopOnUtf8 : Bool) (r : StepResult) : RunMode :=
  match m with
  | .idle => .idle
  | .singleStep => .idle
  | .runToCompletion =>
    if r = .cont ∨ (r = .error .invalidUtf8Lexeme ∧ stopOnUtf8 = false) then .runToCompletion else .idle

/-- `result <- r` (spec/00_scope.md R8) with what the controller does at the end of every step: the snapshot of
spec/45_run_driver.md R162 and the mode. -/
def endStep (r : StepResult) (s : State) : State :=
  { s with
    result := r
    mode := modeAfter s.mode s.stopOnUtf8 r
    snapshot := some ⟨s.x, s.pc, r⟩ }

/-- The step ends with `Continue` and the next instruction in sequence. -/
def continueNext (s : State) : State := endStep .cont (advancePc s)

/-- `raise E`, taking an exception (spec/60_exceptions.md R183, spec/45_run_driver.md R156): the result is
`Error(E)`, the controller leaves its run, and nothing is saved because nothing is overwritten. There is no
handler, so the pc stays where it is. -/
def raise (k : ErrorKind) (s : State) : State := endStep (.error k) s

/-- `suspend` (spec/60_exceptions.md R181): the result is `SuspendedForInput`, all else stays. -/
def suspend (s : State) : State := endStep .suspendedForInput s

/-- The halt of spec/44_step_engine.md R142: the result is `Halted`, all else stays. -/
def halt (s : State) : State := endStep .halted s

end Sys2Proof.Machine
end

