-- ==== Sys2Proof/Machine/Alu.lean ====
section
/-!
DEFINITION. The operations of the Arithmetic class in the wide domain, the normalisation of their result, and the
rule all eight share (spec/43_arithmetic.md R120 to R122).
-/

namespace Sys2Proof.Machine

/-- `F(000, a, c)`. -/
def wideAdd (a c : Byte) : Int := (a.toNat : Int) + (c.toNat : Int)
/-- `F(001, a, c)`. -/
def wideAnd (a c : Byte) : Int := ((a &&& c).toNat : Int)
/-- `F(010, a, c)`. -/
def wideOr (a c : Byte) : Int := ((a ||| c).toNat : Int)
/-- `F(011, a, c)`. -/
def wideXor (a c : Byte) : Int := ((a ^^^ c).toNat : Int)
/-- `F(100, a, c)`: `x[1]` less `x[2]` (decision D2; assumption 14). -/
def wideSub (a c : Byte) : Int := (a.toNat : Int) - (c.toNat : Int)
/-- `F(101, a, c)`. -/
def wideNand (a c : Byte) : Int := -((a &&& c).toNat : Int) - 1
/-- `F(110, a, c)`. -/
def wideNor (a c : Byte) : Int := -((a ||| c).toNat : Int) - 1
/-- `F(111, a, c)`. -/
def wideXnor (a c : Byte) : Int := -((a ^^^ c).toNat : Int) - 1

/-- R121: if negative add 256, then reduce modulo 256. -/
def normalise (m : Int) : Byte :=
  BitVec.ofInt 8 ((if m < 0 then m + 256 else m) % 256)

/-- An Arithmetic instruction with its operation (R120). -/
def arith (f : Byte → Byte → Int) (s : State) : State :=
  continueNext (writeReg s .x3 (normalise (f s.x.x1 s.x.x2)))

end Sys2Proof.Machine
end

