-- ==== Sys2Proof/Machine/Arithmetic.lean ====
section
/-!
DEFINITION. The Arithmetic class (spec/43_arithmetic.md R123 to R130).
-/

namespace Sys2Proof.Machine

open Host (Outcome)

/-- `ADD` (R123). -/
def execAdd (s : State) : Outcome State Fault Refusal :=
  .next (arith wideAdd s)

/-- `AND` (R124). -/
def execAnd (s : State) : Outcome State Fault Refusal :=
  .next (arith wideAnd s)

/-- `OR` (R125). -/
def execOr (s : State) : Outcome State Fault Refusal :=
  .next (arith wideOr s)

/-- `XOR` (R126). -/
def execXor (s : State) : Outcome State Fault Refusal :=
  .next (arith wideXor s)

/-- `SUB` (R127). -/
def execSub (s : State) : Outcome State Fault Refusal :=
  .next (arith wideSub s)

/-- `NAND` (R128). -/
def execNand (s : State) : Outcome State Fault Refusal :=
  .next (arith wideNand s)

/-- `NOR` (R129). -/
def execNor (s : State) : Outcome State Fault Refusal :=
  .next (arith wideNor s)

/-- `XNOR` (R130). -/
def execXnor (s : State) : Outcome State Fault Refusal :=
  .next (arith wideXnor s)

end Sys2Proof.Machine
end

