-- ==== Sys2Proof/Machine/Illegal.lean ====
section
/-!
DEFINITION. The illegal bytes (spec/30_encoding.md R67): each raises its decode-time error, and
nothing of an instruction happens (spec/44_step_engine.md R143).
-/

namespace Sys2Proof.Machine

open Host (Outcome)

/-- A byte 0x48..0x7F (R102; spec/60_exceptions.md R176). -/
def execIllegalConditional (s : State) : Outcome State Fault Refusal :=
  .next (raise .invalidConditional s)

/-- A byte 0xB8..0xBF (R117; spec/60_exceptions.md R177). -/
def execIllegalMoveFrom (s : State) : Outcome State Fault Refusal :=
  .next (raise .invalidMoveFrom s)

/-- A byte 0x87, 0x8F, 0x97, 0x9F, 0xA7, 0xAF, 0xB7 (R117; spec/60_exceptions.md R178). -/
def execIllegalMoveTo (s : State) : Outcome State Fault Refusal :=
  .next (raise .invalidMoveTo s)

/-- A byte 0xC8..0xFF (R133; spec/60_exceptions.md R179). -/
def execIllegalArithmetic (s : State) : Outcome State Fault Refusal :=
  .next (raise .invalidArithmetic s)

end Sys2Proof.Machine
end

