-- ==== Sys2Proof/Machine/Flags.lean ====
section
/-!
DEFINITION. The machine has no flags (spec/10_state.md R17). What stands here is what takes their place: the
predicates on `x[3]` (spec/41_conditional_jump.md R91) and the one jump they decide (R90).
-/

namespace Sys2Proof.Machine

/-- `sgn8(v)`, the two's-complement reading of a byte (spec/00_scope.md R7). -/
def sgn8 (v : Byte) : Int := if v.toNat ≤ 127 then (v.toNat : Int) else (v.toNat : Int) - 256

/-- Predicate `000`. -/
def predNever (_ : Byte) : Bool := false
/-- Predicate `001`. -/
def predEqualZero (v : Byte) : Bool := decide (v = 0)
/-- Predicate `010`. -/
def predGreaterThanZero (v : Byte) : Bool := decide (0 < sgn8 v)
/-- Predicate `011`. -/
def predGreaterOrEqualZero (v : Byte) : Bool := decide (0 ≤ sgn8 v)
/-- Predicate `100`. -/
def predAlways (_ : Byte) : Bool := true
/-- Predicate `101`. -/
def predNotEqualZero (v : Byte) : Bool := decide (v ≠ 0)
/-- Predicate `110`. -/
def predLessOrEqualZero (v : Byte) : Bool := decide (sgn8 v ≤ 0)
/-- Predicate `111`. -/
def predLessThanZero (v : Byte) : Bool := decide (sgn8 v < 0)

/-- A Conditional-Jump with its predicate (R90): the target is the whole of `x[0]`, absolute (R93). -/
def condJump (pred : Byte → Bool) (s : State) : State :=
  if pred s.x.x3 then endStep .cont (setPc s s.x.x0) else continueNext s

end Sys2Proof.Machine
end

