-- ==== Sys2Proof/Machine/Jump.lean ====
section
/-!
DEFINITION. The Conditional-Jump class (spec/41_conditional_jump.md R90 to R101).
-/

namespace Sys2Proof.Machine

open Host (Outcome)

/-- `JNV`, never (R94). -/
def execJnv (s : State) : Outcome State Fault Refusal :=
  .next (condJump predNever s)

/-- `JEZ`, equal-zero (R95). -/
def execJez (s : State) : Outcome State Fault Refusal :=
  .next (condJump predEqualZero s)

/-- `JGZ`, greater-than-zero (R96). -/
def execJgz (s : State) : Outcome State Fault Refusal :=
  .next (condJump predGreaterThanZero s)

/-- `JGEZ`, greater-or-equal-zero (R97). -/
def execJgez (s : State) : Outcome State Fault Refusal :=
  .next (condJump predGreaterOrEqualZero s)

/-- `JMP`, always (R98). -/
def execJmp (s : State) : Outcome State Fault Refusal :=
  .next (condJump predAlways s)

/-- `JNZ`, not-equal-zero (R99). -/
def execJnz (s : State) : Outcome State Fault Refusal :=
  .next (condJump predNotEqualZero s)

/-- `JLEZ`, less-or-equal-zero (R100). -/
def execJlez (s : State) : Outcome State Fault Refusal :=
  .next (condJump predLessOrEqualZero s)

/-- `JLZ`, less-than-zero (R101). -/
def execJlz (s : State) : Outcome State Fault Refusal :=
  .next (condJump predLessThanZero s)

end Sys2Proof.Machine
end

