-- ==== Sys2Proof/Machine/Literal.lean ====
section
/-!
DEFINITION. The Load-Literal class (spec/40_load_literal.md).
-/

namespace Sys2Proof.Machine

open Host (Outcome)

/-- `LIT n`: the six bits, zero-extended, into `x[0]` (R80, R81). -/
def execLit (imm : BitVec 6) (s : State) : Outcome State Fault Refusal :=
  .next (continueNext (writeReg s .x0 (imm.setWidth 8)))

end Sys2Proof.Machine
end

