-- ==== Sys2Proof/Machine/Utf8.lean ====
section
/-!
DEFINITION. The output port and its UTF-8 reassembly accumulator (spec/20_memory.md R44 to R52).
-/

namespace Sys2Proof.Machine

/-- `ExpLen(f)`, the total length that a first byte selects (R46). -/
def expLen (f : Byte) : Option Nat :=
  if f.extractLsb' 7 1 = 0b0#1 then some 1
  else if f.extractLsb' 5 3 = 0b110#3 then some 2
  else if f.extractLsb' 4 4 = 0b1110#4 then some 3
  else if f.extractLsb' 3 5 = 0b11110#5 then some 4
  else none

/-- The expected length of an accumulator, selected by its first byte (R45; decision D5). -/
def accExpLen : List Byte → Option Nat
  | [] => none
  | f :: _ => expLen f

/-- `b & mask`, as a part of a code point. -/
def codeBits (b mask : Byte) : CodePoint := (b &&& mask).setWidth 21

/-- `CodePoint(a)` (R47). -/
def codePoint : List Byte → CodePoint
  | [a] => codeBits a 0xFF
  | [a, b] => (codeBits a 0x1F <<< 6) ||| codeBits b 0x3F
  | [a, b, c] => (codeBits a 0x0F <<< 12) ||| (codeBits b 0x3F <<< 6) ||| codeBits c 0x3F
  | [a, b, c, d] =>
    (codeBits a 0x07 <<< 18) ||| (codeBits b 0x3F <<< 12) ||| (codeBits c 0x3F <<< 6) ||| codeBits d 0x3F
  | _ => 0

/-- What one write to the output port does: the accumulator after it, the fragment it delivers if it delivers
one, and whether it reports `invalid-utf8-lexeme`. -/
structure OutEffect where
  acc : List Byte
  frag : Option CodePoint
  report : Bool
  deriving DecidableEq, Repr

/-- `OutWrite(b)` (R45) for a predicate `Utf8Valid`, which is a parameter (spec/00_scope.md R5). -/
def outWrite (valid : List Byte → Bool) (acc : List Byte) (b : Byte) : OutEffect :=
  let a := acc ++ [b]
  if accExpLen a = some a.length ∧ valid a = true then ⟨[], some (codePoint a), false⟩
  else if a.length = Config.accMax then ⟨[], none, true⟩
  else ⟨a, none, false⟩

/-- `OutWrite(b)` on the machine, with the predicate of its launch (spec/10_state.md R24). -/
def portEffect (s : State) (b : Byte) : OutEffect := outWrite s.utf8Table.accepts s.acc b

/-- A write to the output port: the accumulator and the delivered fragments (R44, R45). -/
def portWrite (s : State) (b : Byte) : State :=
  { s with
    acc := (portEffect s b).acc
    out := s.out ++ (portEffect s b).frag.toList }

end Sys2Proof.Machine
end

