-- ==== Sys2Proof/Machine/Operands.lean ====
section
/-!
DEFINITION. The operands of a Move: what its selectors name (spec/30_encoding.md R66) and the general rule of the
class (spec/42_move.md R110).
-/

namespace Sys2Proof.Machine

/-- A source: a register or the input port. -/
inductive Source where
  | reg (r : Reg)
  | inPort
  deriving DecidableEq, Repr

/-- A destination: a register or the output port. -/
inductive Dest where
  | reg (r : Reg)
  | outPort
  deriving DecidableEq, Repr

/-- Step 1 of R110: the source value and the state after reading it, or nothing on an empty input. -/
def readSource (src : Source) (s : State) : Option (Byte × State) :=
  match src with
  | .reg r => some (s.x.read r, s)
  | .inPort => inPop s

/-- The end of a Move whose input is exhausted: suspension in interactive mode (spec/60_exceptions.md R181), the
fatal error in buffered mode (R180). -/
def inputExhausted (s : State) : State :=
  match s.inputMode with
  | .interactive => suspend s
  | .buffered => raise .notEnoughInput s

/-- Steps 2 and 3 of R110. A Move whose write reports has completed all the same (spec/42_move.md R115). -/
def moveTo (dst : Dest) (v : Byte) (s : State) : State :=
  match dst with
  | .reg r => continueNext (writeReg s r v)
  | .outPort =>
    if (portEffect s v).report then raise .invalidUtf8Lexeme (advancePc (portWrite s v))
    else continueNext (portWrite s v)

/-- `MOV src -> dst` (R110): source first, then destination, then pc. -/
def move (src : Source) (dst : Dest) (s : State) : State :=
  match readSource src s with
  | none => inputExhausted s
  | some (v, s') => moveTo dst v s'

end Sys2Proof.Machine
end

