-- ==== Sys2Proof/Machine/Move.lean ====
section
/-!
DEFINITION. The Move class: the four operand forms (spec/42_move.md R111 to R114).
-/

namespace Sys2Proof.Machine

open Host (Outcome)

/-- `MOV xs -> xd` (R111). -/
def execMovRegReg (src dst : Reg) (s : State) : Outcome State Fault Refusal :=
  .next (move (.reg src) (.reg dst) s)

/-- `MOV in -> xd` (R112). -/
def execMovInReg (dst : Reg) (s : State) : Outcome State Fault Refusal :=
  .next (move .inPort (.reg dst) s)

/-- `MOV xs -> out` (R113). -/
def execMovRegOut (src : Reg) (s : State) : Outcome State Fault Refusal :=
  .next (move (.reg src) .outPort s)

/-- `MOV in -> out` (R114). -/
def execMovInOut (s : State) : Outcome State Fault Refusal :=
  .next (move .inPort .outPort s)

end Sys2Proof.Machine
end

