-- ==== Sys2Proof/Machine/Dispatch.lean ====
section
/-!
DEFINITION. The dispatch of a decoded instruction to its meaning (spec/44_step_engine.md R143, R144).
-/

namespace Sys2Proof.Machine

open Host (Outcome)

/-- The whole effect of one step whose instruction is `i`. -/
def exec (i : Instr) (s : State) : Host.Outcome State Fault Refusal :=
  match i with
  | .lit imm => Sys2Proof.Machine.execLit imm s
  | .jnv => Sys2Proof.Machine.execJnv s
  | .jez => Sys2Proof.Machine.execJez s
  | .jgz => Sys2Proof.Machine.execJgz s
  | .jgez => Sys2Proof.Machine.execJgez s
  | .jmp => Sys2Proof.Machine.execJmp s
  | .jnz => Sys2Proof.Machine.execJnz s
  | .jlez => Sys2Proof.Machine.execJlez s
  | .jlz => Sys2Proof.Machine.execJlz s
  | .movRegReg src dst => Sys2Proof.Machine.execMovRegReg src dst s
  | .movInReg dst => Sys2Proof.Machine.execMovInReg dst s
  | .movRegOut src => Sys2Proof.Machine.execMovRegOut src s
  | .movInOut => Sys2Proof.Machine.execMovInOut s
  | .add => Sys2Proof.Machine.execAdd s
  | .and => Sys2Proof.Machine.execAnd s
  | .or => Sys2Proof.Machine.execOr s
  | .xor => Sys2Proof.Machine.execXor s
  | .sub => Sys2Proof.Machine.execSub s
  | .nand => Sys2Proof.Machine.execNand s
  | .nor => Sys2Proof.Machine.execNor s
  | .xnor => Sys2Proof.Machine.execXnor s
  | .illegalConditional => Sys2Proof.Machine.execIllegalConditional s
  | .illegalMoveFrom => Sys2Proof.Machine.execIllegalMoveFrom s
  | .illegalMoveTo => Sys2Proof.Machine.execIllegalMoveTo s
  | .illegalArithmetic => Sys2Proof.Machine.execIllegalArithmetic s

end Sys2Proof.Machine
end

