-- ==== Sys2Proof/Machine/Driver.lean ====
section
/-!
DEFINITION. The host commands that take no step (spec/45_run_driver.md R150, R151, R159, R160; spec/20_memory.md
R40; spec/70_reset_and_hazards.md R200) and which command is accepted when (R161).
-/

namespace Sys2Proof.Machine

/-- Command acceptance (R161; decision D18): load, reset and append_input in Idle, the two step commands in Idle
with a loaded program, abort during a run. -/
def accepted (c : Command) (s : State) : Bool :=
  match c with
  | .load _ _ _ => decide (s.mode = .idle)
  | .reset => decide (s.mode = .idle)
  | .stepOnce => decide (s.mode = .idle) && s.loaded
  | .runToCompletion => decide (s.mode = .idle) && s.loaded
  | .appendInput _ => decide (s.mode = .idle)
  | .abort => decide (s.mode = .runToCompletion)

/-- The effect of `reset` (spec/70_reset_and_hazards.md R200). `out := []` is its "empty output": the text the
host has collected is cleared. -/
def resetMachine (s : State) : State :=
  { s with
    x := RegFile.zero
    pc := 0
    acc := []
    inbuf := s.input0
    mode := .idle
    result := .none
    out := [] }

/-- A load that fails its structural check (R151; assumption 15). -/
def loadFailed (k : ErrorKind) (s : State) : State := { s with loaded := false, result := .error k }

/-- `load(prog, input0, INPUT_MODE)` in Idle (R151): the length is checked, the bytes are not looked at. -/
def loadMachine (prog input0 : List Byte) (m : InputMode) (s : State) : State :=
  if prog.length < Config.minProgramLength then loadFailed .programIsEmpty s
  else if Config.maxProgramLength < prog.length then loadFailed .programIsTooLong s
  else
    resetMachine
      { s with
        prog := Memory.ofBytes prog
        plen := prog.length
        input0 := input0
        inputMode := m
        loaded := true }

/-- `append_input(b)` (spec/20_memory.md R40): the operation exists in interactive mode only. -/
def appendInput (b : Byte) (s : State) : State :=
  match s.inputMode with
  | .interactive => { s with inbuf := s.inbuf ++ [b] }
  | .buffered => s

/-- `abort` of a run (R159): the mode becomes Idle, everything else stays. -/
def abortRun (s : State) : State := { s with mode := .idle }

end Sys2Proof.Machine
end

