-- ==== Sys2Proof/Machine/Engine.lean ====
section
/-!
DEFINITION. The execution engine's step (spec/44_step_engine.md R140 to R144) and the controller that takes the
turns of host and core (spec/45_run_driver.md R150 to R161).
-/

namespace Sys2Proof.Machine

open Host (Outcome)

/-- `Step` of R144: the halt test, the fetch, the decode, the instruction. -/
def engineStep (s : State) : Outcome State Fault Refusal :=
  if s.plen ≤ s.pc.toNat then .next (halt s)
  else
    match s.prog.read s.pc.toNat with
    | none => .fault .programHole
    | some b => exec (decode b) s

/-- The core's turn at a step boundary: one step if a run is going on, nothing in Idle (spec/45_run_driver.md
R152, R154). While `loaded` is false no step is taken (spec/10_state.md R21). -/
def coreTurn (s : State) : Outcome State Fault Refusal :=
  if s.loaded = true ∧ s.mode ≠ .idle then engineStep s else .next s

/-- What an accepted command does. A step command sets the mode and its first step follows at once, so that the
host never acts between the command and that step (spec/45_run_driver.md R153, R154; assumption 19). -/
def commandEffect (c : Command) (s : State) : Outcome State Fault Refusal :=
  match c with
  | .load prog input0 m => .next (loadMachine prog input0 m s)
  | .reset => .next (resetMachine s)
  | .stepOnce => engineStep { s with mode := .singleStep }
  | .runToCompletion => engineStep { s with mode := .runToCompletion }
  | .appendInput b => .next (appendInput b s)
  | .abort => .next (abortRun s)

/-- The host's turn: a command that is not accepted is ignored and changes nothing (R161). -/
def hostTurn (c : Command) (s : State) : Outcome State Fault Refusal :=
  if accepted c s then commandEffect c s else .next s

/-- One transition of the block. Between two steps it is the host's turn if the schedule names a command, else
the core's. In mode SingleStep the machine is inside a single step, where the host does not act
(spec/00_scope.md R2, spec/45_run_driver.md R161). -/
def machineStep (s : State) : Outcome State Fault Refusal :=
  if s.mode = .singleStep then coreTurn s
  else
    match s.sched with
    | [] => coreTurn s
    | none :: rest => coreTurn { s with sched := rest }
    | some c :: rest => hostTurn c { s with sched := rest }

/-- The program store with one byte placed at `pc`, the length made to reach it, in the midst of a single step. -/
def placeAtPc (s : State) (b : Byte) : State :=
  { s with
    prog := s.prog.write s.pc.toNat b
    plen := max s.plen (s.pc.toNat + 1)
    loaded := true
    mode := .singleStep }

end Sys2Proof.Machine
end

