-- ==== Sys2Proof/Machine/Step.lean ====
section
/-!
DEFINITION. The step the host's interface names, and the state in which the next step runs a given word.
-/

namespace Sys2Proof.Machine

/-- One transition of the block: a turn of the host or of the core. -/
def step (s : State) : Host.Outcome State Fault Refusal := machineStep s

/-- `s` as a load and a single-step command would have it just before its step, with the instruction whose bits
are `w` at `pc` (assumption 1). -/
def State.withFetchWord (s : State) (nbits w : Nat) : State := placeAtPc s (BitVec.ofNat 8 (w % 2 ^ nbits))

end Sys2Proof.Machine
end

