-- ==== Sys2Proof/Safety.lean ====
section
/-!
DEFINITION. The terms in which claims about the machine are stated: how a step ends, the invariant of the machine,
which registers an instruction reads and writes, and what UTF-8 is, said without the machine's own operations.
-/

namespace Sys2Proof.Machine

/-! ### How a step ends -/

/-- A run goes on after this result (spec/45_run_driver.md R154). -/
abbrev goesOn (s : State) (r : StepResult) : Prop :=
  r = .cont ∨ (r = .error .invalidUtf8Lexeme ∧ s.stopOnUtf8 = false)

/-- `s` after a step that has changed what it changes and ends with result `r`: the result, the controller's mode
(R153, R154, R156 to R158) and the snapshot given to the host (R162). -/
def ended (r : StepResult) (s : State) : State :=
  { s with
    result := r
    mode := if s.mode = .runToCompletion ∧ goesOn s r then .runToCompletion else .idle
    snapshot := some ⟨s.x, s.pc, r⟩ }

/-- `ended` after `pc <- pc + 1` with result `Continue`, the end of every instruction but a taken jump. -/
def endedNext (s : State) : State := ended .cont { s with pc := s.pc + 1 }

/-- `n` transitions of the block, stopping at the first fault or refusal: the host's `Core.run` on this machine. -/
def steps : Nat → State → Host.Outcome State Fault Refusal
  | 0, s => .next s
  | n + 1, s =>
    match step s with
    | .next t => steps n t
    | .fault r => .fault r
    | .refused r => .refused r

/-! ### The error kinds that no rule raises -/

/-- `instruction-not-u8`, `wrong-register-amount` and the three `-unreachable` kinds (spec/30_encoding.md R71,
spec/60_exceptions.md R173 to R175). -/
def neverRaised : List ErrorKind :=
  [.instructionNotU8, .wrongRegisterAmount, .conditionalUnreachable, .arithmeticUnreachable, .prefixUnreachable]

/-- The result is none of those errors. -/
def StepResult.raisable (r : StepResult) : Prop := ∀ k ∈ neverRaised, r ≠ .error k

/-! ### The invariant -/

/-- What holds of every state between two steps. -/
structure State.Inv (s : State) : Prop where
  /-- The program store lists the indices 0 to PLEN-1 and no other (spec/20_memory.md R43). -/
  store : s.prog.map Prod.fst = List.range s.plen
  /-- A program has at most 255 bytes (R32). -/
  length_le : s.plen ≤ Config.maxProgramLength
  /-- A loaded program has at least one (R32). -/
  length_pos : s.loaded = true → Config.minProgramLength ≤ s.plen
  /-- Steps are taken on a loaded program alone (spec/10_state.md R21). -/
  runs_loaded : s.mode = .runToCompletion → s.loaded = true
  /-- Mode SingleStep is never seen between steps (spec/45_run_driver.md R161). -/
  not_inside : s.mode ≠ .singleStep
  /-- The accumulator holds at most three bytes between steps (spec/20_memory.md R50). -/
  acc_short : s.acc.length ≤ 3
  /-- A first byte that is a whole character is never pending, where `Utf8Valid` accepts the bytes 00..7F, each alone
  (R50). -/
  acc_lead : (∀ b : Byte, b.toNat ≤ 0x7F → s.utf8Table.accepts [b] = true) → accExpLen s.acc ≠ some 1
  /-- In buffered mode the bytes still to come are the end of the supplied input (R38). -/
  input_order : s.inputMode = .buffered → s.inbuf <:+ s.input0
  /-- The latest result is one that some rule gives (spec/30_encoding.md R71). -/
  result_raisable : s.result.raisable

end Sys2Proof.Machine

namespace Sys2Proof

open Machine

/-! ### Registers read and written -/

/-- The registers an instruction may write: the table of spec/10_state.md R13, by rows. -/
def Instr.writes : Instr → List Reg
  | .lit _ => [.x0]
  | .movRegReg _ d => [d]
  | .movInReg d => [d]
  | .add | .and | .or | .xor | .sub | .nand | .nor | .xnor => [.x3]
  | .jnv | .jez | .jgz | .jgez | .jmp | .jnz | .jlez | .jlz => []
  | .movRegOut _ | .movInOut => []
  | .illegalConditional | .illegalMoveFrom | .illegalMoveTo | .illegalArithmetic => []

/-- The registers an instruction may read: the same table. A jump's read of `x[0]` is listed whether or not the
jump is taken. -/
def Instr.reads : Instr → List Reg
  | .lit _ => []
  | .jnv => []
  | .jmp => [.x0]
  | .jez | .jgz | .jgez | .jnz | .jlez | .jlz => [.x0, .x3]
  | .movRegReg s _ => [s]
  | .movRegOut s => [s]
  | .movInReg _ | .movInOut => []
  | .add | .and | .or | .xor | .sub | .nand | .nor | .xnor => [.x1, .x2]
  | .illegalConditional | .illegalMoveFrom | .illegalMoveTo | .illegalArithmetic => []

/-- The instruction is a Conditional-Jump (spec/30_encoding.md R61). -/
def Instr.isJump : Instr → Bool
  | .jnv | .jez | .jgz | .jgez | .jmp | .jnz | .jlez | .jlz => true
  | .lit _ | .movRegReg _ _ | .movInReg _ | .movRegOut _ | .movInOut => false
  | .add | .and | .or | .xor | .sub | .nand | .nor | .xnor => false
  | .illegalConditional | .illegalMoveFrom | .illegalMoveTo | .illegalArithmetic => false

/-- The instruction reads the input port (spec/42_move.md R110). -/
def Instr.readsInput : Instr → Bool
  | .movInReg _ | .movInOut => true
  | .lit _ | .jnv | .jez | .jgz | .jgez | .jmp | .jnz | .jlez | .jlz => false
  | .movRegReg _ _ | .movRegOut _ => false
  | .add | .and | .or | .xor | .sub | .nand | .nor | .xnor => false
  | .illegalConditional | .illegalMoveFrom | .illegalMoveTo | .illegalArithmetic => false

/-- The instruction writes the output port (spec/42_move.md R110). -/
def Instr.writesOutput : Instr → Bool
  | .movRegOut _ | .movInOut => true
  | .lit _ | .jnv | .jez | .jgz | .jgez | .jmp | .jnz | .jlez | .jlz => false
  | .movRegReg _ _ | .movInReg _ => false
  | .add | .and | .or | .xor | .sub | .nand | .nor | .xnor => false
  | .illegalConditional | .illegalMoveFrom | .illegalMoveTo | .illegalArithmetic => false

/-- The results an instruction can give: the table of spec/44_step_engine.md R147. -/
def Instr.results : Instr → List StepResult
  | .lit _ => [.cont]
  | .jnv | .jez | .jgz | .jgez | .jmp | .jnz | .jlez | .jlz => [.cont]
  | .movRegReg _ _ => [.cont]
  | .movInReg _ => [.cont, .suspendedForInput, .error .notEnoughInput]
  | .movRegOut _ => [.cont, .error .invalidUtf8Lexeme]
  | .movInOut => [.cont, .error .invalidUtf8Lexeme, .suspendedForInput, .error .notEnoughInput]
  | .add | .and | .or | .xor | .sub | .nand | .nor | .xnor => [.cont]
  | .illegalConditional => [.error .invalidConditional]
  | .illegalMoveFrom => [.error .invalidMoveFrom]
  | .illegalMoveTo => [.error .invalidMoveTo]
  | .illegalArithmetic => [.error .invalidArithmetic]

end Sys2Proof

namespace Sys2Proof.Machine

/-! ### UTF-8 -/

/-- A Unicode scalar value: a code point up to U+10FFFF that is no surrogate (spec/20_memory.md R47, R49). -/
abbrev isScalar (c : CodePoint) : Prop :=
  c.toNat ≤ 0x10FFFF ∧ ¬ (0xD800 ≤ c.toNat ∧ c.toNat ≤ 0xDFFF)

/-- The UTF-8 encoding of a code point, by division into groups of six bits. -/
def utf8Encode (c : CodePoint) : List Byte :=
  let n := c.toNat
  let tail (k : Nat) : Byte := BitVec.ofNat 8 (0x80 + n / 64 ^ k % 64)
  if n < 0x80 then [BitVec.ofNat 8 n]
  else if n < 0x800 then [BitVec.ofNat 8 (0xC0 + n / 64), tail 0]
  else if n < 0x10000 then [BitVec.ofNat 8 (0xE0 + n / 64 ^ 2), tail 1, tail 0]
  else [BitVec.ofNat 8 (0xF0 + n / 64 ^ 3), tail 2, tail 1, tail 0]

/-- What a sequence of writes to the output port leaves: the accumulator, the fragments in order, and how many
writes reported `invalid-utf8-lexeme`. -/
structure Written where
  acc : List Byte
  frags : List CodePoint
  reports : Nat
  deriving DecidableEq, Repr

/-- A sequence of writes to the output port, one byte after the other, for a validity predicate. -/
def writeAll (valid : List Byte → Bool) (acc : List Byte) : List Byte → Written
  | [] => ⟨acc, [], 0⟩
  | b :: bs =>
    let e := outWrite valid acc b
    let w := writeAll valid e.acc bs
    ⟨w.acc, e.frag.toList ++ w.frags, (if e.report then 1 else 0) + w.reports⟩

end Sys2Proof.Machine
end

