-- ==== Sys2Proof/Certificates/Slice0/Obligations.lean ====
section
/-!
DEFINITION. The statements about the machine. OBLIGATIONS.json lists them with the rules of spec/ they rest on.
-/

open Sys2Proof Sys2Proof.Machine Host

/-! ### Encoding -/

/-- Decode and encode agree in both directions, no byte of a decode error is an encoding, and every encoding is the
number R72 gives it. The source's sentence is the first direction; the rest is marked in R72 as derived from R70. -/
def Obligations.DecodeEncodeAgree : Prop :=
  (∀ i : Instr, i.wellFormed = true → ∃ b, encode i = some b ∧ decode b = i) ∧
  (∀ b : Byte, (decode b).wellFormed = true → encode (decode b) = some b) ∧
  (∀ i : Instr, i.wellFormed = false → encode i = none) ∧
  (∀ b : Byte, (decode b).wellFormed = false → ∀ i, encode i ≠ some b) ∧
  (∀ n : BitVec 6, encode (.lit n) = some (BitVec.ofNat 8 n.toNat)) ∧
  ([Instr.jnv, .jez, .jgz, .jgez, .jmp, .jnz, .jlez, .jlz].map encode =
    (List.range 8).map fun p => some (BitVec.ofNat 8 (0x40 + p))) ∧
  ([Instr.add, .and, .or, .xor, .sub, .nand, .nor, .xnor].map encode =
    (List.range 8).map fun o => some (BitVec.ofNat 8 (0xC0 + o))) ∧
  (∀ (k l : Nat) (r q : Reg), [Reg.x0, .x1, .x2, .x3, .x4, .x5][k]? = some r →
    [Reg.x0, .x1, .x2, .x3, .x4, .x5][l]? = some q →
    encode (.movRegReg r q) = some (BitVec.ofNat 8 (0x80 + 8 * k + l)) ∧
    encode (.movInReg q) = some (BitVec.ofNat 8 (0x80 + 8 * 6 + l)) ∧
    encode (.movRegOut r) = some (BitVec.ofNat 8 (0x80 + 8 * k + 6)) ∧
    encode .movInOut = some (BitVec.ofNat 8 (0x80 + 8 * 6 + 6)))

/-- The whole map of the 256 byte values, by the ranges of R75, with its count of legal bytes, which R75 marks as
derived. That 0xBF is `invalid-move-from` is the spec's decision D3 (assumption 20). -/
def Obligations.OpcodeMapOfAllBytes : Prop :=
  (∀ n < 64, decode (BitVec.ofNat 8 n) = .lit (BitVec.ofNat 6 n)) ∧
  ((List.range 8).map fun p => decode (BitVec.ofNat 8 (0x40 + p))) = [.jnv, .jez, .jgz, .jgez, .jmp, .jnz, .jlez, .jlz] ∧
  (∀ n < 256, 0x48 ≤ n → n ≤ 0x7F → decode (BitVec.ofNat 8 n) = .illegalConditional) ∧
  (∀ (s d : Nat) (r q : Reg), [Reg.x0, .x1, .x2, .x3, .x4, .x5][s]? = some r →
    [Reg.x0, .x1, .x2, .x3, .x4, .x5][d]? = some q →
    decode (BitVec.ofNat 8 (0x80 + 8 * s + d)) = .movRegReg r q ∧
    decode (BitVec.ofNat 8 (0xB0 + d)) = .movInReg q ∧
    decode (BitVec.ofNat 8 (0x86 + 8 * s)) = .movRegOut r) ∧
  decode 0xB6 = .movInOut ∧
  (∀ s < 7, decode (BitVec.ofNat 8 (0x87 + 8 * s)) = .illegalMoveTo) ∧
  (∀ n < 256, 0xB8 ≤ n → n ≤ 0xBF → decode (BitVec.ofNat 8 n) = .illegalMoveFrom) ∧
  ((List.range 8).map fun o => decode (BitVec.ofNat 8 (0xC0 + o))) = [.add, .and, .or, .xor, .sub, .nand, .nor, .xnor] ∧
  (∀ n < 256, 0xC8 ≤ n → decode (BitVec.ofNat 8 n) = .illegalArithmetic) ∧
  ((List.range 256).filter fun n => (decode (BitVec.ofNat 8 n)).wellFormed).length = 129

/-- Each decode error stands for exactly the bytes whose fields meet its condition. That the source selector of a Move
is looked at first, so that 0xBF is `invalid-move-from`, is the spec's decision D3 (assumption 20). -/
def Obligations.DecodeErrorsByTheirFields : Prop :=
  ∀ b : Byte,
    (decode b = .illegalConditional ↔ b.toNat / 64 = 1 ∧ b.toNat / 8 % 8 ≠ 0) ∧
    (decode b = .illegalMoveFrom ↔ b.toNat / 64 = 2 ∧ b.toNat / 8 % 8 = 7) ∧
    (decode b = .illegalMoveTo ↔ b.toNat / 64 = 2 ∧ b.toNat / 8 % 8 ≠ 7 ∧ b.toNat % 8 = 7) ∧
    (decode b = .illegalArithmetic ↔ b.toNat / 64 = 3 ∧ b.toNat / 8 % 8 ≠ 0)

/-- A few instruction bytes written out bit by bit, one or more for every family. That 0xBF is `invalid-move-from` is
the spec's decision D3 (assumption 20). -/
def Obligations.SampleBytesDecode : Prop :=
  decode 0b00111111 = .lit 63 ∧ decode 0b01000100 = .jmp ∧ decode 0b01000111 = .jlz ∧
  decode 0b10001101 = .movRegReg .x1 .x5 ∧ decode 0b10110001 = .movInReg .x1 ∧
  decode 0b10000110 = .movRegOut .x0 ∧ decode 0b10110110 = .movInOut ∧
  decode 0b11000000 = .add ∧ decode 0b11000100 = .sub ∧ decode 0b11000111 = .xnor ∧
  decode 0b01001100 = .illegalConditional ∧ decode 0b10111111 = .illegalMoveFrom ∧
  decode 0b10110111 = .illegalMoveTo ∧ decode 0b11111111 = .illegalArithmetic

/-! ### Reset, load and the other host commands -/

/-- The state before the first load, and that no step command does anything in it. Only the fields the spec gives a
value are named, and the values of this state are the spec's decision D24, mode and result D18 and D22 (assumption
26). STOP_ON_UTF8_ERROR and Utf8Valid are fields by assumptions 12 and 11. -/
def Obligations.BeforeFirstLoadNothingRuns : Prop :=
  (∀ r : Reg, State.reset.x.read r = 0) ∧ State.reset.pc = 0 ∧ State.reset.acc = [] ∧ State.reset.inbuf = [] ∧
  State.reset.mode = .idle ∧ State.reset.result = .none ∧ State.reset.loaded = false ∧
  (∀ a, State.reset.prog.read a = none) ∧ State.reset.stopOnUtf8 = true ∧
  State.reset.utf8Table.accepts = utf8Valid ∧
  (∀ c ∈ [Command.stepOnce, .runToCompletion], ∀ rest,
    step { State.reset with sched := some c :: rest } = .next { State.reset with sched := rest })

/-- The reset command in Idle: every effect R200 lists and no other change to the machine. Choices of the spec's own
that it carries: mode and result after a reset (D18, D22) and the input restored in interactive mode too (D11;
assumption 26). Choices of the model: the reset of a machine with nothing loaded (R161; assumption 22),
STOP_ON_UTF8_ERROR and `Utf8Valid` as fields that stay (R24; assumptions 12 and 11), the list of fragments (assumption
8), and the latest snapshot, left open here (assumption 9). -/
def Obligations.ResetCommandRestores : Prop :=
  ∀ (s : State) (rest : List (Option Command)), s.mode = .idle → s.sched = some .reset :: rest →
    ∃ shown, step s = .next
      { s with
        x := ⟨0, 0, 0, 0, 0, 0⟩
        pc := 0
        acc := []
        inbuf := s.input0
        mode := .idle
        result := .none
        out := []
        snapshot := shown
        sched := rest }

/-- The load command: refused for its length, accepted otherwise whatever its bytes and its input, ignored outside
Idle; after a failed load no step command does anything. The kind of the empty program, the load's own effects and its
acceptance in Idle alone are the spec's decisions D16, D24, D10 and D18 (assumption 26). That an accepted load clears
`out` and leaves `stopOnUtf8` and `utf8Table` is the model's choice (assumption 25). -/
def Obligations.LoadChecksTheLength : Prop :=
  ∀ (s : State) (prog input0 : List Byte) (m : InputMode) (rest : List (Option Command)),
    s.sched = some (.load prog input0 m) :: rest →
    (s.mode = .idle → prog.length = 0 ∨ 255 < prog.length →
      ∃ t, step s = .next t ∧ t.loaded = false ∧ t.mode = .idle ∧ t.sched = rest ∧
        t.result = .error (if prog.length = 0 then .programIsEmpty else .programIsTooLong) ∧
        (∀ c ∈ [Command.stepOnce, .runToCompletion], ∀ rest',
          step { t with sched := some c :: rest' } = .next { t with sched := rest' })) ∧
    (s.mode = .idle → 1 ≤ prog.length → prog.length ≤ 255 →
      ∃ t, step s = .next t ∧ t.loaded = true ∧ t.plen = prog.length ∧ (∀ a, t.prog.read a = prog[a]?) ∧
        t.input0 = input0 ∧ t.inputMode = m ∧ t.x = ⟨0, 0, 0, 0, 0, 0⟩ ∧ t.pc = 0 ∧ t.acc = [] ∧
        t.inbuf = input0 ∧ t.mode = .idle ∧ t.result = .none ∧ t.out = [] ∧ t.sched = rest ∧
        t.stopOnUtf8 = s.stopOnUtf8 ∧ t.utf8Table = s.utf8Table) ∧
    (s.mode = .runToCompletion → step s = .next { s with sched := rest })

/-- A command issued where R161 does not accept it is ignored, and mode SingleStep is never seen between steps
(assumption 19). R161 is a decision of the spec's own (D18; assumption 26). That an append during a run is ignored is
the model's choice between R161 and R39 with R40 (assumption 5). -/
def Obligations.CommandsOutsideTheirModeIgnored : Prop :=
  (∀ (s : State) (c : Command) (rest : List (Option Command)),
    s.mode ≠ .singleStep → s.sched = some c :: rest →
    (c = .abort → s.mode ≠ .runToCompletion) →
    (c ≠ .abort → s.mode ≠ .idle ∨ ((c = .stepOnce ∨ c = .runToCompletion) ∧ s.loaded = false)) →
    step s = .next { s with sched := rest }) ∧
  (∀ s t : State, s.mode ≠ .singleStep → step s = .next t → t.mode ≠ .singleStep)

/-- Bytes the host appends in Idle, interactive mode, join the end of the input buffer in order and change nothing
else; in buffered mode they change nothing. That they join the end is the spec's decision D10, and that an append
where it is not accepted is ignored is D18 (assumption 26); that the append is made in Idle is R161's condition
(assumption 5). -/
def Obligations.AppendedBytesJoinTheEnd : Prop :=
  ∀ (bytes : List Byte) (s : State) (rest : List (Option Command)), s.mode = .idle →
    s.sched = bytes.map (fun b => some (.appendInput b)) ++ rest →
    (s.inputMode = .interactive →
      steps bytes.length s = .next { s with inbuf := s.inbuf ++ bytes, sched := rest }) ∧
    (s.inputMode = .buffered → steps bytes.length s = .next { s with sched := rest })

/-- The abort of a run: the mode becomes Idle and everything else stays, the latest result among it. The command is
the spec's decision D17 (R159; assumption 26). -/
def Obligations.AbortOnlyReturnsToIdle : Prop :=
  ∀ (s : State) (rest : List (Option Command)), s.mode = .runToCompletion → s.sched = some .abort :: rest →
    step s = .next { s with mode := .idle, sched := rest }

/-- In Idle with no command the machine is frozen; the schedule is the model's (assumption 2). -/
def Obligations.IdleIsFrozen : Prop :=
  ∀ s : State, s.mode = .idle → (s.sched = [] → step s = .next s) ∧
    (∀ rest, s.sched = none :: rest → step s = .next { s with sched := rest })

/-! ### One step -/

/-- A step runs the instruction that the byte at the pc decodes to: in a run at the core's turn, at a single-step
or run command in Idle, and inside a single step. The step adds nothing around the meaning but the mode that the
command sets and the turn taken off the schedule. That the step command and its step are one transition is the
model's choice (assumption 19), as is the schedule (assumption 2). -/
def Obligations.StepRunsTheDecodedInstruction : Prop :=
  ∀ (s : State) (b : Byte), s.loaded = true → s.pc.toNat < s.plen → s.prog.read s.pc.toNat = some b →
    (s.mode = .runToCompletion → s.sched = [] → step s = exec (decode b) s) ∧
    (∀ rest, s.mode = .runToCompletion → s.sched = none :: rest →
      step s = exec (decode b) { s with sched := rest }) ∧
    (∀ rest, s.mode = .idle → s.sched = some .stepOnce :: rest →
      step s = exec (decode b) { s with mode := .singleStep, sched := rest }) ∧
    (∀ rest, s.mode = .idle → s.sched = some .runToCompletion :: rest →
      step s = exec (decode b) { s with mode := .runToCompletion, sched := rest }) ∧
    (s.mode = .singleStep → step s = exec (decode b) s)

/-- A fetch at or past the end of the program halts and changes nothing but the result (and with it the mode and the
snapshot); no instruction gives `Halted`, so this is the one way to it. That a step command and its step are one
transition, the schedule and the snapshot field are the model's choices (assumptions 19, 2 and 9). -/
def Obligations.FetchPastEndHalts : Prop :=
  (∀ s : State, s.loaded = true → s.plen ≤ s.pc.toNat →
    (s.mode = .runToCompletion → s.sched = [] → step s = .next (ended .halted s)) ∧
    (∀ rest, s.mode = .runToCompletion → s.sched = none :: rest →
      step s = .next (ended .halted { s with sched := rest })) ∧
    (∀ rest, s.mode = .idle → s.sched = some .stepOnce :: rest →
      step s = .next (ended .halted { s with mode := .singleStep, sched := rest })) ∧
    (∀ rest, s.mode = .idle → s.sched = some .runToCompletion :: rest →
      step s = .next (ended .halted { s with mode := .runToCompletion, sched := rest })) ∧
    (s.mode = .singleStep → step s = .next (ended .halted s))) ∧
  (∀ (i : Instr) (s t : State), exec i s = .next t → t.result ≠ .halted)

/-- A halted machine stays halted however often it is stepped. The snapshot field and the command with its step in one
transition are the model's (assumptions 9 and 19). -/
def Obligations.HaltedStaysHalted : Prop :=
  ∀ (n : Nat) (s : State), s.mode = .idle → s.loaded = true → s.plen ≤ s.pc.toNat →
    s.sched = List.replicate (n + 1) (some .stepOnce) →
    steps (n + 1) s =
      .next { s with result := .halted, snapshot := some ⟨s.x, s.pc, .halted⟩, sched := [] }

/-- A step that ends with a fatal error gives the same error when it is commanded again, and neither step changes a
register, the pc, the ports or the program store. That a fatal error changes nothing and is not latched is the spec's
decision D12 (assumption 21); the snapshot field and the command with its step in one transition are the model's
(assumptions 9 and 19). -/
def Obligations.FatalErrorsRepeat : Prop :=
  ∀ (s t : State) (k : ErrorKind), s.mode = .idle → s.loaded = true →
    s.sched = [some .stepOnce, some .stepOnce] → step s = .next t → t.result = .error k → k.fatal = true →
    t = { s with result := .error k, snapshot := some ⟨s.x, s.pc, .error k⟩, sched := [some .stepOnce] } ∧
    step t = .next { t with sched := [] }

/-- What a fatal error leaves: everything as it was, the pc at the failing instruction, the controller in Idle. This
is the spec's decision D12 (R183; assumption 21); the snapshot field is the model's (assumption 9). -/
def Obligations.FatalErrorChangesNothing : Prop :=
  ∀ (i : Instr) (s t : State) (k : ErrorKind), exec i s = .next t → t.result = .error k → k.fatal = true →
    t = { s with result := .error k, mode := .idle, snapshot := some ⟨s.x, s.pc, .error k⟩ }

/-- Suspension arises exactly in a Move from the empty input port in interactive mode, and changes nothing. The
snapshot field and the mode after a step from Idle are the model's (assumptions 9 and 24). -/
def Obligations.SuspensionChangesNothing : Prop :=
  ∀ (i : Instr) (s t : State), exec i s = .next t →
    (t.result = .suspendedForInput ↔ i.readsInput = true ∧ s.inputMode = .interactive ∧ s.inbuf = []) ∧
    (t.result = .suspendedForInput →
      t = { s with
        result := .suspendedForInput
        mode := .idle
        snapshot := some ⟨s.x, s.pc, .suspendedForInput⟩ })

/-! ### The instructions

What these statements say of a state in Idle, in which the machine takes no step, is the model's choice: it stays in
Idle (assumption 24). What `ended` says of the snapshot field is R162 with assumption 9. -/

/-- LIT, for every literal and for every byte of its class in the source's own words. -/
def Obligations.LoadLiteralResult : Prop :=
  (∀ (n : BitVec 6) (s : State),
    exec (.lit n) s = .next (endedNext { s with x := { s.x with x0 := BitVec.ofNat 8 n.toNat } })) ∧
  (∀ (b : Byte) (s : State), b >>> 6 = 0 →
    exec (decode b) s = .next (endedNext { s with x := { s.x with x0 := b &&& 0b111111 } }))

/-- The eight jumps, by R91's table: the byte of each, its condition on `x[3]` in the signed reading, and the stored
values that condition stands for, the column R91 marks as derived. -/
def Obligations.ConditionalJumpResults : Prop :=
  ((List.range 8).map fun p => decode (BitVec.ofNat 8 (0x40 + p))) = [.jnv, .jez, .jgz, .jgez, .jmp, .jnz, .jlez, .jlz] ∧
  ∀ s : State,
    let v := s.x.x3.toNat
    let n := s.x.x3.toInt
    let taken := Outcome.next (φ := Fault) (ρ := Refusal) (ended .cont { s with pc := s.x.x0 })
    let notTaken := Outcome.next (φ := Fault) (ρ := Refusal) (endedNext s)
    exec .jnv s = notTaken ∧
    exec .jez s = (if v = 0 then taken else notTaken) ∧
    exec .jgz s = (if 0 < n then taken else notTaken) ∧
    exec .jgez s = (if 0 ≤ n then taken else notTaken) ∧
    exec .jmp s = taken ∧
    exec .jnz s = (if v ≠ 0 then taken else notTaken) ∧
    exec .jlez s = (if n ≤ 0 then taken else notTaken) ∧
    exec .jlz s = (if n < 0 then taken else notTaken) ∧
    (0 < n ↔ 1 ≤ v ∧ v ≤ 127) ∧ (0 ≤ n ↔ v ≤ 127) ∧ (n ≤ 0 ↔ v = 0 ∨ 128 ≤ v) ∧ (n < 0 ↔ 128 ≤ v)

/-- The signed reading of a byte is its two's-complement value. -/
def Obligations.SignedReadingIsTwosComplement : Prop :=
  ∀ v : Byte, sgn8 v = v.toInt ∧ -128 ≤ sgn8 v ∧ sgn8 v ≤ 127

/-- Bit 2 of the predicate field inverts the jump: of the bytes `0x40 + p` and `0x44 + p` one jumps and the other
goes on, in every state. -/
def Obligations.PredicateBitTwoInverts : Prop :=
  ∀ (p : Nat) (s : State), p < 4 →
    ∃ t u, exec (decode (BitVec.ofNat 8 (0x40 + p))) s = .next t ∧ exec (decode (BitVec.ofNat 8 (0x44 + p))) s = .next u ∧
      ((t = ended .cont { s with pc := s.x.x0 } ∧ u = endedNext s) ∨
       (t = endedNext s ∧ u = ended .cont { s with pc := s.x.x0 }))

/-- A taken jump to an index at or past the end of the program completes with `Continue`, and the next step gives
`Halted`. The snapshot field and the command with its step in one transition are the model's (assumptions 9 and 19).
-/
def Obligations.JumpPastEndThenHalts : Prop :=
  ∀ s : State, s.mode = .idle → s.loaded = true → s.sched = [some .stepOnce, some .stepOnce] →
    s.pc.toNat < s.plen → s.prog.read s.pc.toNat = some 0x44 → s.plen ≤ s.x.x0.toNat →
    ∃ t, step s = .next t ∧ t.result = .cont ∧ t.pc = s.x.x0 ∧ t.x = s.x ∧
      step t = .next { t with result := .halted, snapshot := some ⟨s.x, s.x.x0, .halted⟩, sched := [] }

/-- A jump to itself runs for ever: after any number of further steps of the run the machine is the same, but for its
result and the snapshot field (assumption 9). -/
def Obligations.JumpToItselfNeverEnds : Prop :=
  ∀ (n : Nat) (s : State), s.mode = .runToCompletion → s.loaded = true → s.sched = [] →
    s.pc.toNat < s.plen → s.prog.read s.pc.toNat = some 0x44 → s.x.x0 = s.pc →
    steps (n + 1) s = .next { s with result := .cont, snapshot := some ⟨s.x, s.pc, .cont⟩ }

/-- The eight operations on `x[1]` and `x[2]` with the byte of each, every result in 0 to 255 by R122's table. That
SUB stores `x[1] - x[2]` and not `x[2] - x[1]` is the spec's decision D2 (assumption 14). -/
def Obligations.ArithmeticResults : Prop :=
  ((List.range 8).map fun o => decode (BitVec.ofNat 8 (0xC0 + o))) = [.add, .and, .or, .xor, .sub, .nand, .nor, .xnor] ∧
  ∀ s : State,
    let a := s.x.x1.toNat
    let c := s.x.x2.toNat
    let stores (v : Nat) := Outcome.next (φ := Fault) (ρ := Refusal)
      (endedNext { s with x := { s.x with x3 := BitVec.ofNat 8 v } })
    exec .add s = stores ((a + c) % 256) ∧
    exec .and s = stores (a &&& c) ∧
    exec .or s = stores (a ||| c) ∧
    exec .xor s = stores (a ^^^ c) ∧
    exec .sub s = stores (if c ≤ a then a - c else 256 + a - c) ∧
    exec .nand s = stores (255 - (a &&& c)) ∧
    exec .nor s = stores (255 - (a ||| c)) ∧
    exec .xnor s = stores (255 - (a ^^^ c))

/-- The normalisation of a wide result is reduction modulo 256 with a non-negative result. -/
def Obligations.NormalisationIsModulo256 : Prop :=
  ∀ m : Int, -256 ≤ m → m ≤ 510 → ((normalise m).toNat : Int) = m % 256

/-- Comparing with SUB (its direction is assumption 14): the equality jumps are exact, and the sign jump is right for
the signed (unsigned) order exactly when the signed (unsigned) difference lies in -128 to 127. -/
def Obligations.SubtractThenCompare : Prop :=
  ∀ s : State, ∃ t u v w, exec .sub s = .next t ∧ exec .jez t = .next u ∧ exec .jnz t = .next v ∧ exec .jlz t = .next w ∧
    u.pc = (if s.x.x1 = s.x.x2 then s.x.x0 else t.pc + 1) ∧
    v.pc = (if s.x.x1 = s.x.x2 then t.pc + 1 else s.x.x0) ∧
    w.pc = (if 128 ≤ t.x.x3.toNat then s.x.x0 else t.pc + 1) ∧
    ((128 ≤ t.x.x3.toNat ↔ s.x.x1.toInt < s.x.x2.toInt) ↔
      -128 ≤ s.x.x1.toInt - s.x.x2.toInt ∧ s.x.x1.toInt - s.x.x2.toInt ≤ 127) ∧
    ((128 ≤ t.x.x3.toNat ↔ s.x.x1.toNat < s.x.x2.toNat) ↔
      -128 ≤ (s.x.x1.toNat : Int) - s.x.x2.toNat ∧ (s.x.x1.toNat : Int) - s.x.x2.toNat ≤ 127)

/-- Moving between registers never fails and writes the one destination; with source and destination the same only
the pc changes. -/
def Obligations.MoveRegisterToRegister : Prop :=
  ∀ (r d : Reg) (s : State),
    decode (0x80 + 8 * r.number + d.number) = .movRegReg r d ∧
    exec (.movRegReg r d) s = .next (endedNext { s with x := s.x.write d (s.x.read r) }) ∧
    (r = d → exec (.movRegReg r d) s = .next (endedNext s))

/-- The six registers are independent cells: a write changes its own and no other. -/
def Obligations.RegistersAreIndependent : Prop :=
  ∀ (x : RegFile) (r q : Reg) (v : Byte), (x.write r v).read q = if q = r then v else x.read q

/-- Moving from the input port to a register: the byte delivered, and what happens on an empty input. -/
def Obligations.MoveInputToRegister : Prop :=
  ∀ (d : Reg) (s : State),
    decode (0xB0 + d.number) = .movInReg d ∧
    (∀ b rest, s.inbuf = b :: rest →
      exec (.movInReg d) s = .next (endedNext { s with x := s.x.write d b, inbuf := rest })) ∧
    (s.inbuf = [] → s.inputMode = .interactive → exec (.movInReg d) s = .next (ended .suspendedForInput s)) ∧
    (s.inbuf = [] → s.inputMode = .buffered → exec (.movInReg d) s = .next (ended (.error .notEnoughInput) s))

/-- Moving a register to the output port: the accumulator and the fragment are the port's, the pc advances, and the
result says whether the port reported. That the Move whose write reports has pc + 1 and that result is the spec's
decision D9 (R115; assumption 21), what the port does with malformed bytes is D5 and D6 (assumption 13), and the list
of fragments is the model's (assumption 8). -/
def Obligations.MoveRegisterToOutput : Prop :=
  ∀ (r : Reg) (s : State),
    decode (0x86 + 8 * r.number) = .movRegOut r ∧
    let e := outWrite s.utf8Table.accepts s.acc (s.x.read r)
    exec (.movRegOut r) s = .next (ended (if e.report then .error .invalidUtf8Lexeme else .cont)
      { s with acc := e.acc, out := s.out ++ e.frag.toList, pc := s.pc + 1 })

/-- Moving from the input port to the output port: the read first, and nothing reaches the output port on an empty
input. That the Move whose write reports has pc + 1 and that result is the spec's decision D9 (R115; assumption 21),
what the port does with malformed bytes is D5 and D6 (assumption 13), and the list of fragments is the model's
(assumption 8). -/
def Obligations.MoveInputToOutput : Prop :=
  ∀ s : State,
    decode 0xB6 = .movInOut ∧
    (∀ b rest, s.inbuf = b :: rest →
      let e := outWrite s.utf8Table.accepts s.acc b
      exec .movInOut s = .next (ended (if e.report then .error .invalidUtf8Lexeme else .cont)
        { s with inbuf := rest, acc := e.acc, out := s.out ++ e.frag.toList, pc := s.pc + 1 })) ∧
    (s.inbuf = [] → s.inputMode = .interactive → exec .movInOut s = .next (ended .suspendedForInput s)) ∧
    (s.inbuf = [] → s.inputMode = .buffered → exec .movInOut s = .next (ended (.error .notEnoughInput) s))

/-- A Move whose output write reports has completed: accumulator cleared, nothing delivered, input byte consumed, pc
advanced. That it has completed, and that a run ends on it only under STOP_ON_UTF8_ERROR, is the spec's decision D9
(R115, R156; assumptions 21 and 12); when a write reports is D5 and D6 (assumption 13). The snapshot field and the
mode after a step from Idle are the model's (assumptions 9 and 24). -/
def Obligations.ReportedMoveHasCompleted : Prop :=
  ∀ s : State,
    let left (s' : State) : State :=
      { s' with
        acc := []
        pc := s.pc + 1
        result := .error .invalidUtf8Lexeme
        mode := if s.mode = .runToCompletion ∧ s.stopOnUtf8 = false then .runToCompletion else .idle
        snapshot := some ⟨s.x, s.pc + 1, .error .invalidUtf8Lexeme⟩ }
    (∀ r, (outWrite s.utf8Table.accepts s.acc (s.x.read r)).report = true → exec (.movRegOut r) s = .next (left s)) ∧
    (∀ b rest, s.inbuf = b :: rest → (outWrite s.utf8Table.accepts s.acc b).report = true →
      exec .movInOut s = .next (left { s with inbuf := rest }))

/-- The illegal bytes: each of the 127 raises its error and changes nothing; the four decode errors as constructors
and as bytes. That 0xBF is `invalid-move-from` and that 0xB7 takes no input are the spec's decisions D3 and D4
(assumption 20); that an error changes nothing is its decision D12 (assumption 21). -/
def Obligations.IllegalBytesRaiseTheirError : Prop :=
  (∀ s : State,
    exec .illegalConditional s = .next (ended (.error .invalidConditional) s) ∧
    exec .illegalMoveFrom s = .next (ended (.error .invalidMoveFrom) s) ∧
    exec .illegalMoveTo s = .next (ended (.error .invalidMoveTo) s) ∧
    exec .illegalArithmetic s = .next (ended (.error .invalidArithmetic) s)) ∧
  (∀ (b : Byte) (s : State),
    (0x48 ≤ b.toNat → b.toNat ≤ 0x7F → exec (decode b) s = .next (ended (.error .invalidConditional) s)) ∧
    (0xB8 ≤ b.toNat → b.toNat ≤ 0xBF → exec (decode b) s = .next (ended (.error .invalidMoveFrom) s)) ∧
    (b ∈ [0x87, 0x8F, 0x97, 0x9F, 0xA7, 0xAF, 0xB7] →
      exec (decode b) s = .next (ended (.error .invalidMoveTo) s)) ∧
    (0xC8 ≤ b.toNat → exec (decode b) s = .next (ended (.error .invalidArithmetic) s)))

/-! ### The output port -/

/-- The length a first byte selects, by R46's table. -/
def Obligations.ExpectedLengthTable : Prop :=
  ∀ f : Byte, expLen f =
    if f.toNat ≤ 0x7F then some 1
    else if f.toNat ≤ 0xBF then none
    else if f.toNat ≤ 0xDF then some 2
    else if f.toNat ≤ 0xEF then some 3
    else if f.toNat ≤ 0xF7 then some 4
    else none

/-- R49's table of well-formed sequences and R47's formulas are UTF-8: the valid sequences are the encodings of the
Unicode scalar values, and the code point of an encoding is the value encoded. The table as the default of Utf8Valid
is the spec's decision D7 (assumption 11), the code point as the content of a fragment D8 (assumption 10); the spec
takes both from general knowledge. -/
def Obligations.ValidSequencesEncodeScalars : Prop :=
  (∀ a : List Byte, utf8Valid a = true ↔ ∃ c : CodePoint, isScalar c ∧ a = utf8Encode c) ∧
  (∀ c : CodePoint, isScalar c → codePoint (utf8Encode c) = c)

/-- One write to the output port under the default `Utf8Valid`, R49's table: it delivers a character exactly when the
accumulator has become the encoding of one, reports exactly when four bytes have become none, and waits otherwise.
When it waits and when it reports rests on the spec's decisions D5 and D6 (assumption 13), the default predicate is D7
(assumption 11), and a fragment is a code point by D8 (assumption 10). Well-formed output depends on none of D5, D6
and D7 (R51). -/
def Obligations.OutputPortByCharacters : Prop :=
  ∀ (acc : List Byte) (b : Byte),
    (∀ c, isScalar c → acc ++ [b] = utf8Encode c → outWrite utf8Valid acc b = ⟨[], some c, false⟩) ∧
    ((∀ c, isScalar c → acc ++ [b] ≠ utf8Encode c) →
      outWrite utf8Valid acc b = if acc.length = 3 then ⟨[], none, true⟩ else ⟨acc ++ [b], none, false⟩)

/-- Well-formed output comes out as its characters whatever the validity predicate does with malformed sequences: no
report, nothing left pending. It does not rest on decisions D5, D6 and D7 (R51); a fragment is a code point by D8
(assumption 10). -/
def Obligations.WellFormedOutputIsDelivered : Prop :=
  ∀ valid : List Byte → Bool, (∀ a, utf8Valid a = true → valid a = true) →
    ∀ cs : List CodePoint, (∀ c ∈ cs, isScalar c) →
      writeAll valid [] (cs.flatMap utf8Encode) = ⟨[], cs, 0⟩

/-- Every fragment delivered is one Unicode scalar value, where `Utf8Valid` accepts well-formed sequences alone, as
R49 has it (D7; assumption 11). A fragment is a code point by D8 (assumption 10). The list of fragments and its
clearing by load are the model's (assumptions 8 and 25). -/
def Obligations.FragmentsAreScalars : Prop :=
  ∀ s t : State, (∀ a, s.utf8Table.accepts a = true → utf8Valid a = true) → (∀ c ∈ s.out, isScalar c) →
    step s = .next t → ∀ c ∈ t.out, isScalar c

/-! ### The machine as a whole -/

/-- From every state that meets the invariant every step has a next state, and that state meets it. The launch
parameters as fields, the program store as a list and mode SingleStep inside a step alone are the model's (assumptions
3, 6 and 19); acceptance of commands is D18 (assumption 26), the accumulator's bound with D6 (assumption 13). -/
def Obligations.EveryStepKeepsTheInvariant : Prop :=
  ∀ s : State, s.Inv → ∃ t, step s = .next t ∧ t.Inv

/-- The reset state meets the invariant. Its values are the spec's decision D24 (assumption 26), its input mode the
model's (assumption 4). -/
def Obligations.ResetMeetsTheInvariant : Prop := State.reset.Inv

/-- Where the invariant holds, the increment of the pc never wraps around. The width of the pc is the spec's decision
D1 (assumption 7). -/
def Obligations.PcIncrementNeverWraps : Prop :=
  ∀ s : State, s.Inv → s.pc.toNat < s.plen → (s.pc + 1).toNat = s.pc.toNat + 1

/-- A step command in Idle on a loaded machine always produces a result and returns to the host. The snapshot field
and the command with its step in one transition are the model's (assumptions 9 and 19); that a step has no time is the
spec's decision D20 (assumption 23). -/
def Obligations.StepCommandProducesResult : Prop :=
  ∀ (s : State) (rest : List (Option Command)), s.Inv → s.mode = .idle → s.loaded = true →
    s.sched = some .stepOnce :: rest →
    ∃ t, step s = .next t ∧ t.result ≠ .none ∧ t.mode = .idle ∧ t.sched = rest ∧
      t.snapshot = some ⟨t.x, t.pc, t.result⟩

/-- Nothing but an accepted load changes the program store or the launch parameters. That these are fields of State is
the model's choice (assumptions 3, 12 and 11); that the input mode is fixed between loads is the spec's decision D21
(assumption 26). -/
def Obligations.OnlyLoadChangesTheProgram : Prop :=
  ∀ s t : State, step s = .next t →
    ¬ (s.mode = .idle ∧ ∃ prog input0 m rest, s.sched = some (.load prog input0 m) :: rest) →
    (∀ a, t.prog.read a = s.prog.read a) ∧ t.prog = s.prog ∧ t.plen = s.plen ∧ t.input0 = s.input0 ∧
    t.inputMode = s.inputMode ∧ t.stopOnUtf8 = s.stopOnUtf8 ∧ t.utf8Table = s.utf8Table ∧ t.loaded = s.loaded

/-- An instruction writes no register outside its row of R13, and a register it does not read has no influence on
anything else it does. The list of fragments, and `exec` on a state in Idle, are the model's (assumptions 8 and 24).
-/
def Obligations.RegistersReadAndWritten : Prop :=
  ∀ (i : Instr) (s : State), ∃ t, exec i s = .next t ∧
    (∀ r, r ∉ i.writes → t.x.read r = s.x.read r) ∧
    (∀ r v, r ∉ i.reads → ∃ u, exec i { s with x := s.x.write r v } = .next u ∧
      u.pc = t.pc ∧ u.acc = t.acc ∧ u.inbuf = t.inbuf ∧ u.out = t.out ∧ u.result = t.result ∧ u.mode = t.mode ∧
      (∀ q, q ≠ r → u.x.read q = t.x.read q) ∧
      u.x.read r = if r ∈ i.writes ∧ t.result = .cont then t.x.read r else v)

/-- A jump that is not taken reads no target: `x[0]` has no influence on it. -/
def Obligations.UntakenJumpIgnoresTarget : Prop :=
  ∀ (i : Instr) (s : State) (v : Byte), i.isJump = true → exec i s = .next (endedNext s) → s.pc + 1 ≠ s.x.x0 →
    exec i { s with x := { s.x with x0 := v } } = .next (endedNext { s with x := { s.x with x0 := v } })

/-- The bounds on one step's effects: at most one register, at most one input byte, at most one fragment; and the
state no instruction touches at all. The list of fragments, the schedule and the launch parameters as fields are the
model's (assumptions 8, 2 and 3). -/
def Obligations.StepEffectsAreBounded : Prop :=
  ∀ (i : Instr) (s t : State), exec i s = .next t →
    (∃ r, ∀ q, q ≠ r → t.x.read q = s.x.read q) ∧
    (t.inbuf = s.inbuf ∨ i.readsInput = true ∧ ∃ b, s.inbuf = b :: t.inbuf) ∧
    (t.out = s.out ∨ ∃ c, t.out = s.out ++ [c]) ∧
    (t.pc = s.pc ∨ t.pc = s.pc + 1 ∨ i.isJump = true ∧ t.pc = s.x.x0) ∧
    t.prog = s.prog ∧ t.plen = s.plen ∧ t.loaded = s.loaded ∧ t.input0 = s.input0 ∧ t.inputMode = s.inputMode ∧
    t.stopOnUtf8 = s.stopOnUtf8 ∧ t.utf8Table = s.utf8Table ∧ t.sched = s.sched

/-- The results each kind of instruction can give. That a reporting Move gives `invalid-utf8-lexeme` as its result is
the spec's decision D9 (assumption 21). -/
def Obligations.ResultsByInstruction : Prop :=
  ∀ (i : Instr) (s : State), ∃ t, exec i s = .next t ∧ t.result ∈ i.results

/-- The error kinds that the taxonomy lists and no input can cause are never produced: R71's and, by the spec's
decision D23, `instruction-not-u8` and `wrong-register-amount` (assumption 16). -/
def Obligations.UnreachableErrorsNeverArise : Prop :=
  ∀ s t : State, s.result.raisable → step s = .next t → t.result.raisable

/-- A step does not depend on the result of an earlier step, nor on the snapshot or the output already delivered. The
result register is the spec's decision D22 (assumption 26), the other two fields are the model's (assumptions 9 and
8). -/
def Obligations.EarlierResultsAreNotRead : Prop :=
  ∀ (i : Instr) (s : State) (r : StepResult) (sn : Option Snapshot) (o : List CodePoint),
    ∃ t delivered, exec i s = .next t ∧ t.out = s.out ++ delivered ∧
      exec i { s with result := r, snapshot := sn, out := o } = .next { t with out := o ++ delivered }

/-- The two input modes differ only when the input buffer is empty. -/
def Obligations.InputModesAgreeOnBytes : Prop :=
  ∀ (i : Instr) (s : State) (m : InputMode), s.inbuf ≠ [] →
    ∃ t, exec i s = .next t ∧ exec i { s with inputMode := m } = .next { t with inputMode := m }

/-- `Utf8Valid` is asked by a write to the output port alone, and there of the accumulator with the byte written:
another predicate changes nothing where no port is written or where it agrees on what is asked. The predicate as a
field of State is the model's choice (assumption 11). -/
def Obligations.Utf8PredicateActsAtTheOutputAlone : Prop :=
  ∀ (i : Instr) (s : State) (table : Utf8Table),
    (i.writesOutput = true → ∀ v : Byte, table.accepts (s.acc ++ [v]) = s.utf8Table.accepts (s.acc ++ [v])) →
    ∃ t, exec i s = .next t ∧ exec i { s with utf8Table := table } = .next { t with utf8Table := table }

/-- The snapshot after every instruction is the registers, the pc and the result of the state it leaves. A snapshot
after every step is the spec's decision D22 (assumption 26), the field that keeps it the model's choice (assumption
9). -/
def Obligations.SnapshotShowsTheStep : Prop :=
  ∀ (i : Instr) (s t : State), exec i s = .next t → t.snapshot = some ⟨t.x, t.pc, t.result⟩

/-- When a run goes on after a step, by the result and STOP_ON_UTF8_ERROR, and that a single step always returns to
Idle. The parameter is the spec's decision D9 (assumption 12). That `exec` on a state in Idle ends in Idle is the
model's choice (assumption 24). -/
def Obligations.RunGoesOnByResultAndParameter : Prop :=
  ∀ (i : Instr) (s t : State), exec i s = .next t →
    (s.mode = .runToCompletion → (t.mode = .runToCompletion ↔
      t.result = .cont ∨ t.result = .error .invalidUtf8Lexeme ∧ s.stopOnUtf8 = false)) ∧
    (t.mode ≠ .runToCompletion → t.mode = .idle) ∧ (s.mode ≠ .runToCompletion → t.mode = .idle)

/-- A run is the same as repeated single steps: as long as the run has not ended before its last step, it leaves the
same registers, pc, ports, output, result and snapshot as that many single steps. That a step command and its first
step are one transition is the model's choice (assumption 19), as are the schedule, the list of fragments and the
snapshot field (assumptions 2, 8 and 9). -/
def Obligations.RunIsRepeatedSingleSteps : Prop :=
  ∀ (n : Nat) (s a : State), s.mode = .idle → s.loaded = true →
    steps (n + 1) { s with sched := [some .runToCompletion] } = .next a →
    (∀ k c, 1 ≤ k → k ≤ n → steps k { s with sched := [some .runToCompletion] } = .next c →
      c.mode = .runToCompletion) →
    steps (n + 1) { s with sched := List.replicate (n + 1) (some .stepOnce) } = .next { a with mode := .idle }

/-- Suspension and resumption: the step suspends with nothing changed, the host appends a byte, and the same Move then
completes with that byte. The append in Idle is R161's condition (assumption 5), its place at the end of the input D10
(assumption 26), and the command with its step in one transition the model's choice (assumption 19). -/
def Obligations.SuspendThenResume : Prop :=
  ∀ (s : State) (d : Reg) (b c : Byte), s.mode = .idle → s.loaded = true → s.inputMode = .interactive →
    s.inbuf = [] → s.pc.toNat < s.plen → s.prog.read s.pc.toNat = some c → decode c = .movInReg d →
    s.sched = [some .stepOnce, some (.appendInput b), some .stepOnce] →
    (∃ t, step s = .next t ∧ t.result = .suspendedForInput ∧ t.x = s.x ∧ t.pc = s.pc ∧ t.acc = s.acc ∧ t.inbuf = []) ∧
    ∃ u, steps 3 s = .next u ∧ u.result = .cont ∧ u.x = s.x.write d b ∧ u.pc = s.pc + 1 ∧ u.acc = s.acc ∧
      u.inbuf = [] ∧ u.mode = .idle
end

