-- ==== Sys2Proof/Laws/Memory.lean ====
section
/-!
SUPPORT. The program store: what a read gives after a write and after a load, and that every operation keeps the
canonical form.
-/

namespace Sys2Proof.Machine

theorem memory_read_write (m : Memory) (a k : Nat) (b : Byte) :
    (m.write a b).read k = if k = a then some b else m.read k := by
  induction m with
  | nil => simp [Memory.write, Memory.read, eq_comm]
  | cons c rest ih =>
    unfold Memory.write
    split
    · simp [Memory.read, eq_comm]
    · split
      · rename_i h
        by_cases hk : k = a
        · simp [Memory.read, hk]
        · have hc : c.1 ≠ k := fun e => hk (e.symm.trans h.symm)
          have ha : a ≠ k := fun e => hk e.symm
          simp [Memory.read, hk, hc, ha]
      · rename_i h
        by_cases hc : c.1 = k
        · have : k ≠ a := fun e => h (e.symm.trans hc.symm)
          simp [Memory.read, hc, this]
        · simp [Memory.read, hc, ih]

theorem memory_wf_cons (c : Host.Cell) (m : Memory) :
    Memory.wf (c :: m) = true ↔ (∀ d ∈ m.head?, c.1 < d.1) ∧ Memory.wf m = true := by
  cases m <;> simp [Memory.wf]

theorem memory_write_head (m : Memory) (a : Nat) (b : Byte) :
    ∀ d ∈ (m.write a b).head?, d.1 = a ∨ ∃ e ∈ m.head?, d.1 = e.1 := by
  cases m with
  | nil => simp [Memory.write]
  | cons c rest =>
    unfold Memory.write
    split
    · simp
    · split <;> simp

/-- Writing keeps the canonical form. -/
theorem memory_write_wf (m : Memory) (a : Nat) (b : Byte) (h : m.wf = true) : (m.write a b).wf = true := by
  induction m with
  | nil => simp [Memory.write, Memory.wf]
  | cons c rest ih =>
    obtain ⟨h1, h2⟩ := (memory_wf_cons c rest).1 h
    unfold Memory.write
    split
    · rename_i hlt
      exact (memory_wf_cons _ _).2 ⟨by simpa using hlt, h⟩
    · split
      · rename_i heq
        refine (memory_wf_cons _ _).2 ⟨fun d hd => ?_, h2⟩
        simpa [heq] using h1 d hd
      · rename_i hlt hne
        refine (memory_wf_cons _ _).2 ⟨fun d hd => ?_, ih h2⟩
        rcases memory_write_head rest a b d hd with e | ⟨e, he, e'⟩
        · omega
        · exact e' ▸ h1 e he

theorem memory_cellsFrom_read (k : Nat) (bs : List Byte) (a : Nat) :
    (Memory.cellsFrom k bs).read a = if k ≤ a then bs[a - k]? else none := by
  induction bs generalizing k with
  | nil => simp [Memory.cellsFrom, Memory.read]
  | cons b bs ih =>
    simp only [Memory.cellsFrom, Memory.read, ih]
    by_cases hk : k = a
    · simp [hk]
    · by_cases hle : k ≤ a
      · have h1 : a - k = (a - (k + 1)) + 1 := by omega
        simp [hk, hle, show k + 1 ≤ a by omega, h1]
      · simp [hk, hle, show ¬ k + 1 ≤ a by omega]

/-- A loaded program reads back byte for byte, and nothing stands after it. -/
theorem memory_ofBytes_read (bs : List Byte) (a : Nat) : (Memory.ofBytes bs).read a = bs[a]? := by
  simp [Memory.ofBytes, memory_cellsFrom_read]

theorem memory_cellsFrom_keys (k : Nat) (bs : List Byte) :
    (Memory.cellsFrom k bs).map Prod.fst = List.range' k bs.length := by
  induction bs generalizing k with
  | nil => rfl
  | cons b bs ih => simp [Memory.cellsFrom, ih, List.range'_succ]

theorem memory_cellsFrom_wf (k : Nat) (bs : List Byte) : (Memory.cellsFrom k bs).wf = true := by
  induction bs generalizing k with
  | nil => rfl
  | cons b bs ih =>
    refine (memory_wf_cons _ _).2 ⟨fun d hd => ?_, ih (k + 1)⟩
    cases bs with
    | nil => simp [Memory.cellsFrom] at hd
    | cons c cs => simp [Memory.cellsFrom] at hd; subst hd; simp

/-- A load leaves the store in canonical form. -/
theorem memory_ofBytes_wf (bs : List Byte) : (Memory.ofBytes bs).wf = true := memory_cellsFrom_wf 0 bs

/-- A store whose indices are 0 to n-1 holds a byte at each of them and at no other. -/
theorem memory_read_isSome (m : Memory) (a : Nat) : (m.read a).isSome = true ↔ a ∈ m.map Prod.fst := by
  induction m with
  | nil => simp [Memory.read]
  | cons c rest ih =>
    by_cases h : c.1 = a <;> simp [Memory.read, h, ih, eq_comm]
    exact fun h' => absurd h'.symm h

/-- The canonical form at reset. -/
theorem reset_prog_wf : State.reset.prog.wf = true := rfl

end Sys2Proof.Machine
end

