-- ==== Sys2Proof/Laws/State.lean ====
section
/-!
SUPPORT. What each update of the state leaves in each field: one lemma per field per update, so that no proof
unfolds a record update.
-/

namespace Sys2Proof.Machine

@[simp] theorem writeReg_x (s : State) (r : Reg) (v : Byte) : (writeReg s r v).x = s.x.write r v := rfl
@[simp] theorem writeReg_pc (s : State) (r : Reg) (v : Byte) : (writeReg s r v).pc = s.pc := rfl
@[simp] theorem writeReg_acc (s : State) (r : Reg) (v : Byte) : (writeReg s r v).acc = s.acc := rfl
@[simp] theorem writeReg_inbuf (s : State) (r : Reg) (v : Byte) : (writeReg s r v).inbuf = s.inbuf := rfl
@[simp] theorem writeReg_mode (s : State) (r : Reg) (v : Byte) : (writeReg s r v).mode = s.mode := rfl
@[simp] theorem writeReg_result (s : State) (r : Reg) (v : Byte) : (writeReg s r v).result = s.result := rfl
@[simp] theorem writeReg_loaded (s : State) (r : Reg) (v : Byte) : (writeReg s r v).loaded = s.loaded := rfl
@[simp] theorem writeReg_prog (s : State) (r : Reg) (v : Byte) : (writeReg s r v).prog = s.prog := rfl
@[simp] theorem writeReg_plen (s : State) (r : Reg) (v : Byte) : (writeReg s r v).plen = s.plen := rfl
@[simp] theorem writeReg_input0 (s : State) (r : Reg) (v : Byte) : (writeReg s r v).input0 = s.input0 := rfl
@[simp] theorem writeReg_inputMode (s : State) (r : Reg) (v : Byte) : (writeReg s r v).inputMode = s.inputMode := rfl
@[simp] theorem writeReg_stopOnUtf8 (s : State) (r : Reg) (v : Byte) : (writeReg s r v).stopOnUtf8 = s.stopOnUtf8 := rfl
@[simp] theorem writeReg_utf8Table (s : State) (r : Reg) (v : Byte) : (writeReg s r v).utf8Table = s.utf8Table := rfl
@[simp] theorem writeReg_out (s : State) (r : Reg) (v : Byte) : (writeReg s r v).out = s.out := rfl
@[simp] theorem writeReg_snapshot (s : State) (r : Reg) (v : Byte) : (writeReg s r v).snapshot = s.snapshot := rfl
@[simp] theorem writeReg_sched (s : State) (r : Reg) (v : Byte) : (writeReg s r v).sched = s.sched := rfl

@[simp] theorem setPc_x (s : State) (t : Byte) : (setPc s t).x = s.x := rfl
@[simp] theorem setPc_pc (s : State) (t : Byte) : (setPc s t).pc = t := rfl
@[simp] theorem setPc_acc (s : State) (t : Byte) : (setPc s t).acc = s.acc := rfl
@[simp] theorem setPc_inbuf (s : State) (t : Byte) : (setPc s t).inbuf = s.inbuf := rfl
@[simp] theorem setPc_mode (s : State) (t : Byte) : (setPc s t).mode = s.mode := rfl
@[simp] theorem setPc_result (s : State) (t : Byte) : (setPc s t).result = s.result := rfl
@[simp] theorem setPc_loaded (s : State) (t : Byte) : (setPc s t).loaded = s.loaded := rfl
@[simp] theorem setPc_prog (s : State) (t : Byte) : (setPc s t).prog = s.prog := rfl
@[simp] theorem setPc_plen (s : State) (t : Byte) : (setPc s t).plen = s.plen := rfl
@[simp] theorem setPc_input0 (s : State) (t : Byte) : (setPc s t).input0 = s.input0 := rfl
@[simp] theorem setPc_inputMode (s : State) (t : Byte) : (setPc s t).inputMode = s.inputMode := rfl
@[simp] theorem setPc_stopOnUtf8 (s : State) (t : Byte) : (setPc s t).stopOnUtf8 = s.stopOnUtf8 := rfl
@[simp] theorem setPc_utf8Table (s : State) (t : Byte) : (setPc s t).utf8Table = s.utf8Table := rfl
@[simp] theorem setPc_out (s : State) (t : Byte) : (setPc s t).out = s.out := rfl
@[simp] theorem setPc_snapshot (s : State) (t : Byte) : (setPc s t).snapshot = s.snapshot := rfl
@[simp] theorem setPc_sched (s : State) (t : Byte) : (setPc s t).sched = s.sched := rfl

@[simp] theorem advancePc_x (s : State) : (advancePc s).x = s.x := rfl
@[simp] theorem advancePc_pc (s : State) : (advancePc s).pc = s.pc + 1 := rfl
@[simp] theorem advancePc_acc (s : State) : (advancePc s).acc = s.acc := rfl
@[simp] theorem advancePc_inbuf (s : State) : (advancePc s).inbuf = s.inbuf := rfl
@[simp] theorem advancePc_mode (s : State) : (advancePc s).mode = s.mode := rfl
@[simp] theorem advancePc_result (s : State) : (advancePc s).result = s.result := rfl
@[simp] theorem advancePc_loaded (s : State) : (advancePc s).loaded = s.loaded := rfl
@[simp] theorem advancePc_prog (s : State) : (advancePc s).prog = s.prog := rfl
@[simp] theorem advancePc_plen (s : State) : (advancePc s).plen = s.plen := rfl
@[simp] theorem advancePc_input0 (s : State) : (advancePc s).input0 = s.input0 := rfl
@[simp] theorem advancePc_inputMode (s : State) : (advancePc s).inputMode = s.inputMode := rfl
@[simp] theorem advancePc_stopOnUtf8 (s : State) : (advancePc s).stopOnUtf8 = s.stopOnUtf8 := rfl
@[simp] theorem advancePc_utf8Table (s : State) : (advancePc s).utf8Table = s.utf8Table := rfl
@[simp] theorem advancePc_out (s : State) : (advancePc s).out = s.out := rfl
@[simp] theorem advancePc_snapshot (s : State) : (advancePc s).snapshot = s.snapshot := rfl
@[simp] theorem advancePc_sched (s : State) : (advancePc s).sched = s.sched := rfl

@[simp] theorem endStep_x (r : StepResult) (s : State) : (endStep r s).x = s.x := rfl
@[simp] theorem endStep_pc (r : StepResult) (s : State) : (endStep r s).pc = s.pc := rfl
@[simp] theorem endStep_acc (r : StepResult) (s : State) : (endStep r s).acc = s.acc := rfl
@[simp] theorem endStep_inbuf (r : StepResult) (s : State) : (endStep r s).inbuf = s.inbuf := rfl
@[simp] theorem endStep_mode (r : StepResult) (s : State) : (endStep r s).mode = modeAfter s.mode s.stopOnUtf8 r := rfl
@[simp] theorem endStep_result (r : StepResult) (s : State) : (endStep r s).result = r := rfl
@[simp] theorem endStep_loaded (r : StepResult) (s : State) : (endStep r s).loaded = s.loaded := rfl
@[simp] theorem endStep_prog (r : StepResult) (s : State) : (endStep r s).prog = s.prog := rfl
@[simp] theorem endStep_plen (r : StepResult) (s : State) : (endStep r s).plen = s.plen := rfl
@[simp] theorem endStep_input0 (r : StepResult) (s : State) : (endStep r s).input0 = s.input0 := rfl
@[simp] theorem endStep_inputMode (r : StepResult) (s : State) : (endStep r s).inputMode = s.inputMode := rfl
@[simp] theorem endStep_stopOnUtf8 (r : StepResult) (s : State) : (endStep r s).stopOnUtf8 = s.stopOnUtf8 := rfl
@[simp] theorem endStep_utf8Table (r : StepResult) (s : State) : (endStep r s).utf8Table = s.utf8Table := rfl
@[simp] theorem endStep_out (r : StepResult) (s : State) : (endStep r s).out = s.out := rfl
@[simp] theorem endStep_snapshot (r : StepResult) (s : State) : (endStep r s).snapshot = some ⟨s.x, s.pc, r⟩ := rfl
@[simp] theorem endStep_sched (r : StepResult) (s : State) : (endStep r s).sched = s.sched := rfl

@[simp] theorem portWrite_x (s : State) (b : Byte) : (portWrite s b).x = s.x := rfl
@[simp] theorem portWrite_pc (s : State) (b : Byte) : (portWrite s b).pc = s.pc := rfl
@[simp] theorem portWrite_acc (s : State) (b : Byte) : (portWrite s b).acc = (portEffect s b).acc := rfl
@[simp] theorem portWrite_inbuf (s : State) (b : Byte) : (portWrite s b).inbuf = s.inbuf := rfl
@[simp] theorem portWrite_mode (s : State) (b : Byte) : (portWrite s b).mode = s.mode := rfl
@[simp] theorem portWrite_result (s : State) (b : Byte) : (portWrite s b).result = s.result := rfl
@[simp] theorem portWrite_loaded (s : State) (b : Byte) : (portWrite s b).loaded = s.loaded := rfl
@[simp] theorem portWrite_prog (s : State) (b : Byte) : (portWrite s b).prog = s.prog := rfl
@[simp] theorem portWrite_plen (s : State) (b : Byte) : (portWrite s b).plen = s.plen := rfl
@[simp] theorem portWrite_input0 (s : State) (b : Byte) : (portWrite s b).input0 = s.input0 := rfl
@[simp] theorem portWrite_inputMode (s : State) (b : Byte) : (portWrite s b).inputMode = s.inputMode := rfl
@[simp] theorem portWrite_stopOnUtf8 (s : State) (b : Byte) : (portWrite s b).stopOnUtf8 = s.stopOnUtf8 := rfl
@[simp] theorem portWrite_utf8Table (s : State) (b : Byte) : (portWrite s b).utf8Table = s.utf8Table := rfl
@[simp] theorem portWrite_out (s : State) (b : Byte) : (portWrite s b).out = s.out ++ (portEffect s b).frag.toList := rfl
@[simp] theorem portWrite_snapshot (s : State) (b : Byte) : (portWrite s b).snapshot = s.snapshot := rfl
@[simp] theorem portWrite_sched (s : State) (b : Byte) : (portWrite s b).sched = s.sched := rfl

end Sys2Proof.Machine
end

