-- ==== Sys2Proof/Laws/Ops.lean ====
section
/-!
SUPPORT. One lemma for each shared operation that says all it can do, for proofs to cite in place of unfolding it.
-/

namespace Sys2Proof.Machine

open Host (Outcome)

/-! ### How a step ends -/

/-- The model's end of a step is the one the claims name. -/
theorem endStep_eq_ended (r : StepResult) (s : State) : endStep r s = ended r s := by
  unfold endStep ended modeAfter goesOn
  cases s.mode <;> simp

theorem continueNext_eq (s : State) : continueNext s = endedNext s := endStep_eq_ended _ _
theorem raise_eq (k : ErrorKind) (s : State) : raise k s = ended (.error k) s := endStep_eq_ended _ _
theorem suspend_eq (s : State) : suspend s = ended .suspendedForInput s := endStep_eq_ended _ _
theorem halt_eq (s : State) : halt s = ended .halted s := endStep_eq_ended _ _

/-- The mode after a step: Idle, or the run going on after a result that lets it. -/
theorem ended_mode_cases (r : StepResult) (s : State) :
    ((ended r s).mode = .runToCompletion ∧ s.mode = .runToCompletion ∧ goesOn s r) ∨
    ((ended r s).mode = .idle ∧ ¬ (s.mode = .runToCompletion ∧ goesOn s r)) := by
  by_cases h : s.mode = .runToCompletion ∧ goesOn s r
  · exact .inl ⟨by simp only [ended, if_pos h], h⟩
  · exact .inr ⟨by simp only [ended, if_neg h], h⟩

/-- From outside a run a step ends in Idle. -/
theorem ended_of_not_run (r : StepResult) (s : State) (h : s.mode ≠ .runToCompletion) :
    ended r s = { s with result := r, mode := .idle, snapshot := some ⟨s.x, s.pc, r⟩ } := by
  simp [ended, h]

/-! ### Registers -/

/-- Reading after a write. -/
theorem regFile_read_write_self (x : RegFile) (r : Reg) (v : Byte) : (x.write r v).read r = v := by
  cases r <;> rfl

/-- A write leaves every other register. -/
theorem regFile_read_write_ne (x : RegFile) (r q : Reg) (v : Byte) (h : q ≠ r) :
    (x.write r v).read q = x.read q := by
  cases r <;> cases q <;> first | rfl | exact absurd rfl h

/-! ### The classes -/

/-- A jump is taken to `x[0]` or goes on. -/
theorem condJump_cases (p : Byte → Bool) (s : State) :
    (p s.x.x3 = true ∧ condJump p s = ended .cont { s with pc := s.x.x0 }) ∨
    (p s.x.x3 = false ∧ condJump p s = endedNext s) := by
  unfold condJump
  cases p s.x.x3
  · exact .inr ⟨rfl, continueNext_eq s⟩
  · exact .inl ⟨rfl, endStep_eq_ended _ _⟩

/-- An Arithmetic instruction stores the normalised result. -/
theorem arith_eq (f : Byte → Byte → Int) (s : State) :
    arith f s = endedNext { s with x := { s.x with x3 := normalise (f s.x.x1 s.x.x2) } } := continueNext_eq _

/-- A Move from a register to a register. -/
theorem move_reg_reg (r d : Reg) (s : State) :
    move (.reg r) (.reg d) s = endedNext { s with x := s.x.write d (s.x.read r) } := continueNext_eq _

/-- The end of a Move to the output port. -/
theorem moveTo_outPort (v : Byte) (s : State) :
    moveTo .outPort v s =
      ended (if (portEffect s v).report then .error .invalidUtf8Lexeme else .cont)
        { s with
          acc := (portEffect s v).acc
          out := s.out ++ (portEffect s v).frag.toList
          pc := s.pc + 1 } := by
  unfold moveTo
  cases (portEffect s v).report
  · exact continueNext_eq _
  · exact raise_eq _ _

/-- A Move from the input port: the first byte goes to the destination, or the input is exhausted. -/
theorem move_inPort_cases (dst : Dest) (s : State) :
    (∃ b rest, s.inbuf = b :: rest ∧ move .inPort dst s = moveTo dst b { s with inbuf := rest }) ∨
    (s.inbuf = [] ∧ s.inputMode = .interactive ∧ move .inPort dst s = ended .suspendedForInput s) ∨
    (s.inbuf = [] ∧ s.inputMode = .buffered ∧ move .inPort dst s = ended (.error .notEnoughInput) s) := by
  cases hb : s.inbuf with
  | cons b rest => exact .inl ⟨b, rest, rfl, by simp [move, readSource, inPop, hb]⟩
  | nil =>
    cases hm : s.inputMode
    · exact .inr (.inr ⟨rfl, rfl, by simp [move, readSource, inPop, hb, inputExhausted, hm, raise_eq]⟩)
    · exact .inr (.inl ⟨rfl, rfl, by simp [move, readSource, inPop, hb, inputExhausted, hm, suspend_eq]⟩)

/-! ### The output port -/

/-- One write to the output port: a flush, a report, or waiting. -/
theorem outWrite_cases (valid : List Byte → Bool) (acc : List Byte) (b : Byte) :
    (accExpLen (acc ++ [b]) = some (acc.length + 1) ∧ valid (acc ++ [b]) = true ∧
      outWrite valid acc b = ⟨[], some (codePoint (acc ++ [b])), false⟩) ∨
    (¬ (accExpLen (acc ++ [b]) = some (acc.length + 1) ∧ valid (acc ++ [b]) = true) ∧ acc.length = 3 ∧
      outWrite valid acc b = ⟨[], none, true⟩) ∨
    (¬ (accExpLen (acc ++ [b]) = some (acc.length + 1) ∧ valid (acc ++ [b]) = true) ∧ acc.length ≠ 3 ∧
      outWrite valid acc b = ⟨acc ++ [b], none, false⟩) := by
  have hl : (acc ++ [b]).length = acc.length + 1 := by simp
  unfold outWrite
  simp only [hl, Config.accMax]
  by_cases h : accExpLen (acc ++ [b]) = some (acc.length + 1) ∧ valid (acc ++ [b]) = true
  · exact .inl ⟨h.1, h.2, by simp [h]⟩
  · by_cases h3 : acc.length = 3
    · exact .inr (.inl ⟨h, h3, by simp only [if_neg h]; simp [h3]⟩)
    · exact .inr (.inr ⟨h, h3, by simp only [if_neg h]; simp [h3]⟩)

/-! ### The engine and the controller -/

/-- Every meaning has a next state. -/
theorem exec_next (i : Instr) (s : State) : ∃ t, exec i s = .next t := by
  cases i <;> exact ⟨_, rfl⟩

/-- All that an instruction can do: write its one destination; jump or go on; take a byte into a register; write
the output port, from a register or from the input; find the input empty; raise its decode error. -/
theorem exec_cases (i : Instr) (s : State) :
    (∃ d v, i.writes = [d] ∧ i.results = [.cont] ∧ exec i s = .next (endedNext { s with x := s.x.write d v })) ∨
    (i.isJump = true ∧ exec i s = .next (ended .cont { s with pc := s.x.x0 })) ∨
    (i.isJump = true ∧ exec i s = .next (endedNext s)) ∨
    (∃ d b rest, i = .movInReg d ∧ s.inbuf = b :: rest ∧
      exec i s = .next (endedNext { s with x := s.x.write d b, inbuf := rest })) ∨
    (∃ v rest, ((∃ r, i = .movRegOut r ∧ v = s.x.read r ∧ rest = s.inbuf) ∨ (i = .movInOut ∧ s.inbuf = v :: rest)) ∧
      exec i s = .next (moveTo .outPort v { s with inbuf := rest })) ∨
    (i.readsInput = true ∧ s.inbuf = [] ∧ s.inputMode = .interactive ∧
      exec i s = .next (ended .suspendedForInput s)) ∨
    (i.readsInput = true ∧ s.inbuf = [] ∧ s.inputMode = .buffered ∧
      exec i s = .next (ended (.error .notEnoughInput) s)) ∨
    (∃ k, i.wellFormed = false ∧ i.results = [.error k] ∧ exec i s = .next (ended (.error k) s)) := by
  have write (j : Instr) (d : Reg) (v : Byte) (hw : j.writes = [d]) (hr : j.results = [.cont])
      (h : exec j s = .next (continueNext (writeReg s d v))) :
      ∃ d v, j.writes = [d] ∧ j.results = [.cont] ∧ exec j s = .next (endedNext { s with x := s.x.write d v }) :=
    ⟨d, v, hw, hr, by rw [h, continueNext_eq]; rfl⟩
  have jump (j : Instr) (p : Byte → Bool) (hj : j.isJump = true) (h : exec j s = .next (condJump p s)) :
      (j.isJump = true ∧ exec j s = .next (ended .cont { s with pc := s.x.x0 })) ∨
      (j.isJump = true ∧ exec j s = .next (endedNext s)) := by
    rw [h]
    rcases condJump_cases p s with ⟨_, e⟩ | ⟨_, e⟩ <;> rw [e]
    · exact .inl ⟨hj, rfl⟩
    · exact .inr ⟨hj, rfl⟩
  have jumps {j : Instr} {A D : Prop} (h : (j.isJump = true ∧ exec j s = .next (ended .cont { s with pc := s.x.x0 })) ∨
      (j.isJump = true ∧ exec j s = .next (endedNext s))) :
      A ∨ (j.isJump = true ∧ exec j s = .next (ended .cont { s with pc := s.x.x0 })) ∨
      (j.isJump = true ∧ exec j s = .next (endedNext s)) ∨ D :=
    .inr (h.elim .inl fun g => .inr (.inl g))
  cases i with
  | lit n => exact .inl (write _ .x0 _ rfl rfl rfl)
  | movRegReg r d => exact .inl (write _ d _ rfl rfl rfl)
  | add => exact .inl (write _ .x3 _ rfl rfl rfl)
  | and => exact .inl (write _ .x3 _ rfl rfl rfl)
  | or => exact .inl (write _ .x3 _ rfl rfl rfl)
  | xor => exact .inl (write _ .x3 _ rfl rfl rfl)
  | sub => exact .inl (write _ .x3 _ rfl rfl rfl)
  | nand => exact .inl (write _ .x3 _ rfl rfl rfl)
  | nor => exact .inl (write _ .x3 _ rfl rfl rfl)
  | xnor => exact .inl (write _ .x3 _ rfl rfl rfl)
  | jnv => exact jumps (jump _ _ rfl rfl)
  | jez => exact jumps (jump _ _ rfl rfl)
  | jgz => exact jumps (jump _ _ rfl rfl)
  | jgez => exact jumps (jump _ _ rfl rfl)
  | jmp => exact jumps (jump _ _ rfl rfl)
  | jnz => exact jumps (jump _ _ rfl rfl)
  | jlez => exact jumps (jump _ _ rfl rfl)
  | jlz => exact jumps (jump _ _ rfl rfl)
  | movInReg d =>
    have hx : exec (.movInReg d) s = .next (move .inPort (.reg d) s) := rfl
    rcases move_inPort_cases (.reg d) s with ⟨b, rest, hb, e⟩ | ⟨hb, hm, e⟩ | ⟨hb, hm, e⟩ <;> rw [hx, e]
    · exact .inr (.inr (.inr (.inl ⟨d, b, rest, rfl, hb, congrArg _ (continueNext_eq _)⟩)))
    · exact .inr (.inr (.inr (.inr (.inr (.inl ⟨rfl, hb, hm, rfl⟩)))))
    · exact .inr (.inr (.inr (.inr (.inr (.inr (.inl ⟨rfl, hb, hm, rfl⟩))))))
  | movRegOut r => exact .inr (.inr (.inr (.inr (.inl ⟨_, _, .inl ⟨r, rfl, rfl, rfl⟩, rfl⟩))))
  | movInOut =>
    have hx : exec .movInOut s = .next (move .inPort .outPort s) := rfl
    rcases move_inPort_cases .outPort s with ⟨b, rest, hb, e⟩ | ⟨hb, hm, e⟩ | ⟨hb, hm, e⟩ <;> rw [hx, e]
    · exact .inr (.inr (.inr (.inr (.inl ⟨b, rest, .inr ⟨rfl, hb⟩, rfl⟩))))
    · exact .inr (.inr (.inr (.inr (.inr (.inl ⟨rfl, hb, hm, rfl⟩)))))
    · exact .inr (.inr (.inr (.inr (.inr (.inr (.inl ⟨rfl, hb, hm, rfl⟩))))))
  | illegalConditional => exact .inr (.inr (.inr (.inr (.inr (.inr (.inr ⟨_, rfl, rfl, congrArg _ (raise_eq _ _)⟩))))))
  | illegalMoveFrom => exact .inr (.inr (.inr (.inr (.inr (.inr (.inr ⟨_, rfl, rfl, congrArg _ (raise_eq _ _)⟩))))))
  | illegalMoveTo => exact .inr (.inr (.inr (.inr (.inr (.inr (.inr ⟨_, rfl, rfl, congrArg _ (raise_eq _ _)⟩))))))
  | illegalArithmetic => exact .inr (.inr (.inr (.inr (.inr (.inr (.inr ⟨_, rfl, rfl, congrArg _ (raise_eq _ _)⟩))))))

/-- The engine's step: the halt, the instruction fetched, or the fetch of an index the store does not list. -/
theorem engineStep_cases (s : State) :
    (s.plen ≤ s.pc.toNat ∧ engineStep s = .next (ended .halted s)) ∨
    (s.pc.toNat < s.plen ∧ ∃ b, s.prog.read s.pc.toNat = some b ∧ engineStep s = exec (decode b) s) ∨
    (s.pc.toNat < s.plen ∧ s.prog.read s.pc.toNat = none ∧ engineStep s = .fault .programHole) := by
  unfold engineStep
  by_cases h : s.plen ≤ s.pc.toNat
  · exact .inl ⟨h, by simp [h, halt_eq]⟩
  · cases hr : s.prog.read s.pc.toNat with
    | none => exact .inr (.inr ⟨by omega, rfl, by simp [h]⟩)
    | some b => exact .inr (.inl ⟨by omega, b, rfl, by simp [h]⟩)

/-- The engine's step below the end of the program. -/
theorem engineStep_of_read {s : State} {b : Byte} (h : s.pc.toNat < s.plen)
    (hb : s.prog.read s.pc.toNat = some b) : engineStep s = exec (decode b) s := by
  simp [engineStep, show ¬ s.plen ≤ s.pc.toNat by omega, hb]

/-- The engine's step at or past the end of the program. -/
theorem engineStep_of_end {s : State} (h : s.plen ≤ s.pc.toNat) : engineStep s = .next (ended .halted s) := by
  simp [engineStep, h, halt_eq]

/-- The core's turn of a machine that runs nothing. -/
theorem coreTurn_of_rest {s : State} (h : s.loaded = false ∨ s.mode = .idle) : coreTurn s = .next s := by
  unfold coreTurn
  rcases h with h | h <;> simp [h]

/-- The core's turn of a machine that runs. -/
theorem coreTurn_of_run {s : State} (hl : s.loaded = true) (hm : s.mode ≠ .idle) : coreTurn s = engineStep s := by
  simp [coreTurn, hl, hm]

/-- The host's turn with an accepted command. -/
theorem hostTurn_of_accepted {c : Command} {s : State} (h : accepted c s = true) : hostTurn c s = commandEffect c s := by
  simp [hostTurn, h]

/-- The host's turn with a command that is not accepted. -/
theorem hostTurn_of_ignored {c : Command} {s : State} (h : accepted c s = false) : hostTurn c s = .next s := by
  simp [hostTurn, h]

/-- A transition is a turn of the core or of the host, by the mode and the schedule. -/
theorem step_cases (s : State) :
    (s.mode = .singleStep ∧ step s = coreTurn s) ∨
    (s.mode ≠ .singleStep ∧ s.sched = [] ∧ step s = coreTurn s) ∨
    (s.mode ≠ .singleStep ∧ ∃ rest, s.sched = none :: rest ∧ step s = coreTurn { s with sched := rest }) ∨
    (s.mode ≠ .singleStep ∧ ∃ c rest, s.sched = some c :: rest ∧ step s = hostTurn c { s with sched := rest }) := by
  unfold step machineStep
  by_cases h : s.mode = .singleStep
  · exact .inl ⟨h, by simp [h]⟩
  · match hs : s.sched with
    | [] => exact .inr (.inl ⟨h, rfl, by simp [h]⟩)
    | none :: rest => exact .inr (.inr (.inl ⟨h, rest, rfl, by simp [h]⟩))
    | some c :: rest => exact .inr (.inr (.inr ⟨h, c, rest, rfl, by simp [h]⟩))

/-- A transition in which the host issues a command. -/
theorem step_of_command {s : State} {c : Command} {rest : List (Option Command)} (hm : s.mode ≠ .singleStep)
    (hs : s.sched = some c :: rest) : step s = hostTurn c { s with sched := rest } := by
  simp [step, machineStep, hm, hs]

/-- A transition in which the host issues none. -/
theorem step_of_pass {s : State} {rest : List (Option Command)} (hm : s.mode ≠ .singleStep)
    (hs : s.sched = none :: rest) : step s = coreTurn { s with sched := rest } := by
  simp [step, machineStep, hm, hs]

/-- A transition with nothing on the schedule. -/
theorem step_of_empty {s : State} (hs : s.sched = []) : step s = coreTurn s := by
  simp [step, machineStep, hs]

/-- The single-step command in Idle on a loaded machine is one step of the engine. -/
theorem step_stepOnce {s : State} {rest : List (Option Command)} (hm : s.mode = .idle) (hl : s.loaded = true)
    (hs : s.sched = some .stepOnce :: rest) :
    step s = engineStep { s with sched := rest, mode := .singleStep } := by
  rw [step_of_command (by simp [hm]) hs, hostTurn_of_accepted (by simp [accepted, hm, hl])]
  rfl

/-! ### The host's commands -/

/-- A load fails for its length or installs its program and resets. -/
theorem loadMachine_cases (prog input0 : List Byte) (m : InputMode) (s : State) :
    (prog.length = 0 ∧ loadMachine prog input0 m s = loadFailed .programIsEmpty s) ∨
    (255 < prog.length ∧ loadMachine prog input0 m s = loadFailed .programIsTooLong s) ∨
    (1 ≤ prog.length ∧ prog.length ≤ 255 ∧ loadMachine prog input0 m s =
      resetMachine
        { s with
          prog := Memory.ofBytes prog
          plen := prog.length
          input0 := input0
          inputMode := m
          loaded := true }) := by
  unfold loadMachine
  by_cases h0 : prog.length < Config.minProgramLength
  · exact .inl ⟨Nat.lt_one_iff.1 h0, if_pos h0⟩
  · by_cases h1 : Config.maxProgramLength < prog.length
    · exact .inr (.inl ⟨h1, by rw [if_neg h0, if_pos h1]⟩)
    · exact .inr (.inr ⟨Nat.not_lt.1 h0, Nat.not_lt.1 h1, by rw [if_neg h0, if_neg h1]⟩)

/-- An append in interactive mode adds its byte, in buffered mode it does nothing. -/
theorem appendInput_cases (b : Byte) (s : State) :
    (s.inputMode = .interactive ∧ appendInput b s = { s with inbuf := s.inbuf ++ [b] }) ∨
    (s.inputMode = .buffered ∧ appendInput b s = s) := by
  cases h : s.inputMode
  · exact .inr ⟨rfl, by simp [appendInput, h]⟩
  · exact .inl ⟨rfl, by simp [appendInput, h]⟩

/-! ### Runs -/

/-- A run of one more step. -/
theorem steps_succ {s t : State} (h : step s = .next t) (n : Nat) : steps (n + 1) s = steps n t := by
  simp [steps, h]

/-- A run is the host's run of the machine. -/
theorem steps_eq_run (n : Nat) (s : State) : steps n s = Sys2Proof.core.run n s := by
  induction n generalizing s with
  | zero => rfl
  | succ n ih =>
    cases hs : step s with
    | next t =>
      have hc : Sys2Proof.core.step s = .next t := hs
      simp only [steps, Host.Core.run, hs, hc]
      exact ih t
    | fault r =>
      have hc : Sys2Proof.core.step s = .fault r := hs
      simp only [steps, Host.Core.run, hs, hc]
      rfl
    | refused r =>
      have hc : Sys2Proof.core.step s = .refused r := hs
      simp only [steps, Host.Core.run, hs, hc]
      rfl

end Sys2Proof.Machine
end

