-- ==== Sys2Proof/Laws/PerInstr.lean ====
section
/-!
SUPPORT. Lemmas made per instruction. EncodingClass: an instruction has an encoding exactly when it is well formed,
and the class field of the encoding is the class of its format (spec/30_encoding.md R61 to R65).
-/

namespace Sys2Proof.Laws.EncodingClass

/-- The class field of an instruction's format, `none` for a decode error. -/
def classOf : Instr → Option (BitVec 2)
  | .lit _ => some 0b00#2
  | .jnv | .jez | .jgz | .jgez | .jmp | .jnz | .jlez | .jlz => some 0b01#2
  | .movRegReg _ _ | .movInReg _ | .movRegOut _ | .movInOut => some 0b10#2
  | .add | .and | .or | .xor | .sub | .nand | .nor | .xnor => some 0b11#2
  | .illegalConditional | .illegalMoveFrom | .illegalMoveTo | .illegalArithmetic => none

/-- The encoding's class field. -/
def Statement (i : Instr) : Prop :=
  (encode i).map classField = classOf i ∧ (encode i).isSome = i.wellFormed

theorem lit (imm : BitVec 6) : Statement (.lit imm) := by revert imm; unfold Statement; decide

theorem jnv : Statement .jnv := by unfold Statement; decide

theorem jez : Statement .jez := by unfold Statement; decide

theorem jgz : Statement .jgz := by unfold Statement; decide

theorem jgez : Statement .jgez := by unfold Statement; decide

theorem jmp : Statement .jmp := by unfold Statement; decide

theorem jnz : Statement .jnz := by unfold Statement; decide

theorem jlez : Statement .jlez := by unfold Statement; decide

theorem jlz : Statement .jlz := by unfold Statement; decide

theorem movRegReg (src dst : Reg) : Statement (.movRegReg src dst) := by
  cases src <;> cases dst <;> (unfold Statement; decide)

theorem movInReg (dst : Reg) : Statement (.movInReg dst) := by cases dst <;> (unfold Statement; decide)

theorem movRegOut (src : Reg) : Statement (.movRegOut src) := by cases src <;> (unfold Statement; decide)

theorem movInOut : Statement .movInOut := by unfold Statement; decide

theorem add : Statement .add := by unfold Statement; decide

theorem and : Statement .and := by unfold Statement; decide

theorem or : Statement .or := by unfold Statement; decide

theorem xor : Statement .xor := by unfold Statement; decide

theorem sub : Statement .sub := by unfold Statement; decide

theorem nand : Statement .nand := by unfold Statement; decide

theorem nor : Statement .nor := by unfold Statement; decide

theorem xnor : Statement .xnor := by unfold Statement; decide

theorem illegalConditional : Statement .illegalConditional := by unfold Statement; decide

theorem illegalMoveFrom : Statement .illegalMoveFrom := by unfold Statement; decide

theorem illegalMoveTo : Statement .illegalMoveTo := by unfold Statement; decide

theorem illegalArithmetic : Statement .illegalArithmetic := by unfold Statement; decide

end Sys2Proof.Laws.EncodingClass
end

