-- ==== Sys2Proof/Laws/Utf8.lean ====
section
/-!
SUPPORT. The predicate `Utf8Valid` as a table: what a row and R49's table admit, and that a table stands for every
predicate the output port can ask.
-/

namespace Sys2Proof.Machine

/-- A row admits sequences of its own length alone. -/
theorem utf8Row_admits_length {row : Utf8Row} {a : List Byte} (h : row.admits a = true) : a.length = row.length := by
  induction row generalizing a with
  | nil => cases a with
    | nil => rfl
    | cons b a => cases h
  | cons r row ih => cases a with
    | nil => cases h
    | cons b a =>
      simp only [Utf8Row.admits, Bool.and_eq_true] at h
      simp [ih h.2]

/-- The row whose ranges are single bytes admits the one sequence they spell. -/
theorem utf8Row_admits_exactly (a b : List Byte) :
    Utf8Row.admits (b.map fun x => (x, x)) a = true ↔ a = b := by
  induction b generalizing a with
  | nil => cases a <;> simp [Utf8Row.admits]
  | cons x b ih => cases a with
    | nil => simp [Utf8Row.admits]
    | cons y a =>
      have hxy : between x x y = true ↔ y = x := by
        simp only [between, Bool.and_eq_true, decide_eq_true_eq]
        constructor
        · intro h
          exact BitVec.eq_of_toNat_eq (by omega)
        · rintro rfl
          exact ⟨le_refl _, le_refl _⟩
      simp [Utf8Row.admits, ih, hxy]

/-- A table accepts what one of its rows admits. -/
theorem utf8Table_accepts_iff (t : Utf8Table) (a : List Byte) :
    t.accepts a = true ↔ ∃ row ∈ t, row.admits a = true := by
  simp [Utf8Table.accepts]

/-- R49's table accepts sequences of one to four bytes alone. -/
theorem utf8Valid_length {a : List Byte} (h : utf8Valid a = true) : 1 ≤ a.length ∧ a.length ≤ 4 := by
  obtain ⟨row, hrow, ha⟩ := (utf8Table_accepts_iff _ _).1 h
  rw [utf8Row_admits_length ha]
  have lengths : ∀ row ∈ standardUtf8, 1 ≤ row.length ∧ row.length ≤ 4 := by decide
  exact lengths row hrow

/-- The field of State stands for every predicate on sequences of one to four bytes (spec/00_scope.md R5): each is
that of some table. -/
theorem exists_utf8Table (valid : List Byte → Bool) :
    ∃ t : Utf8Table, ∀ a : List Byte, a.length ≤ 4 → t.accepts a = valid a := by
  have fin : {a : List Byte | a.length ≤ 4}.Finite := List.finite_length_le Byte 4
  refine ⟨(fin.toFinset.toList.filter valid).map fun b => b.map fun x => (x, x), fun a ha => ?_⟩
  rw [Bool.eq_iff_iff, utf8Table_accepts_iff]
  simp [utf8Row_admits_exactly, ha]

end Sys2Proof.Machine
end

