-- ==== Sys2Proof/Tests/Slice0.lean ====
section
/-!
SUPPORT. Tests. Expected values come from spec/95_test_vectors.md (the vector is named beside each) and from the
encoding tables of spec/30_encoding.md, written out by hand. The last part shows for every statement with hypotheses
a state and operands that meet them together.
-/

namespace Sys2Proof.Tests

open Sys2Proof Sys2Proof.Machine Host

/-! ### Helpers -/

/-- The next state, where there is one. -/
def nextOf (o : Outcome State Fault Refusal) : Option State :=
  match o with
  | .next t => some t
  | .fault _ => none
  | .refused _ => none

/-- A loaded machine in Idle with given registers and pc, no input and nothing scheduled. -/
def bench (bytes : List Byte) (x : RegFile) (pc : Byte) : State :=
  { State.reset with prog := Memory.ofBytes bytes, plen := bytes.length, loaded := true, x := x, pc := pc }

/-- The registers, the pc and the result after an instruction. -/
def seen (i : Instr) (s : State) : Option (RegFile × Byte × StepResult) :=
  (nextOf (exec i s)).map fun t => (t.x, t.pc, t.result)

/-- The pc after an instruction on `x[0]`, `x[3]` and a pc. -/
def pcAfter (i : Instr) (x0 x3 pc : Byte) : Option Byte :=
  (nextOf (exec i (bench [] ⟨x0, 0, 0, x3, 0, 0⟩ pc))).map State.pc

/-- `x[3]` after an operation on `x[1]` and `x[2]`. -/
def x3After (i : Instr) (a c : Byte) : Option Byte :=
  (nextOf (exec i (bench [] ⟨0, a, c, 0, 0, 0⟩ 0))).map fun t => t.x.x3

/-- The start of spec/95_test_vectors.md 3.4. -/
def moveStart : State := bench [0, 0, 0, 0, 0] ⟨10, 11, 12, 13, 14, 15⟩ 4

/-! ### WellFormed smoke: each term it must refuse -/

theorem test_refuses_illegalConditional : Instr.illegalConditional.wellFormed = false := by decide
theorem test_refuses_illegalMoveFrom : Instr.illegalMoveFrom.wellFormed = false := by decide
theorem test_refuses_illegalMoveTo : Instr.illegalMoveTo.wellFormed = false := by decide
theorem test_refuses_illegalArithmetic : Instr.illegalArithmetic.wellFormed = false := by decide

/-! ### Decoding: one word for every constructor, bit by bit (R61 to R67, R91, R122) -/

theorem test_decode_lit : decode 0b00101010 = .lit 42 := by decide
theorem test_decode_jnv : decode 0b01000000 = .jnv := by decide
theorem test_decode_jez : decode 0b01000001 = .jez := by decide
theorem test_decode_jgz : decode 0b01000010 = .jgz := by decide
theorem test_decode_jgez : decode 0b01000011 = .jgez := by decide
theorem test_decode_jmp : decode 0b01000100 = .jmp := by decide
theorem test_decode_jnz : decode 0b01000101 = .jnz := by decide
theorem test_decode_jlez : decode 0b01000110 = .jlez := by decide
theorem test_decode_jlz : decode 0b01000111 = .jlz := by decide
theorem test_decode_movRegReg : decode 0b10011100 = .movRegReg .x3 .x4 := by decide
theorem test_decode_movInReg : decode 0b10110010 = .movInReg .x2 := by decide
theorem test_decode_movRegOut : decode 0b10101110 = .movRegOut .x5 := by decide
theorem test_decode_movInOut : decode 0b10110110 = .movInOut := by decide
theorem test_decode_add : decode 0b11000000 = .add := by decide
theorem test_decode_and : decode 0b11000001 = .and := by decide
theorem test_decode_or : decode 0b11000010 = .or := by decide
theorem test_decode_xor : decode 0b11000011 = .xor := by decide
theorem test_decode_sub : decode 0b11000100 = .sub := by decide
theorem test_decode_nand : decode 0b11000101 = .nand := by decide
theorem test_decode_nor : decode 0b11000110 = .nor := by decide
theorem test_decode_xnor : decode 0b11000111 = .xnor := by decide
theorem test_decode_illegalConditional : decode 0b01001100 = .illegalConditional := by decide
theorem test_decode_illegalMoveFrom : decode 0b10111111 = .illegalMoveFrom := by decide
theorem test_decode_illegalMoveTo : decode 0b10000111 = .illegalMoveTo := by decide
theorem test_decode_illegalArithmetic : decode 0b11001000 = .illegalArithmetic := by decide

/-- The host's two questions: a table row's word decodes to its instruction, and no other width does. -/
theorem test_tableWord : decodeTableWord 8 0xC4 = some .sub ∧ decodeTableWord 16 0xC4 = none := by decide

/-- A word placed where the next step fetches runs as the first instruction after reset. -/
theorem test_withFetchWord :
    (nextOf (step (State.reset.withFetchWord 8 0x2A))).map (fun t => (t.x.x0, t.pc, t.result, t.mode)) =
      some (42, 1, .cont, .idle) := by decide

/-! ### Instructions -/

/-- V-L2. -/
theorem test_lit_63 : seen (.lit 63) (bench [] ⟨9, 11, 12, 13, 14, 15⟩ 4) =
    some (⟨63, 11, 12, 13, 14, 15⟩, 5, .cont) := by decide

/-- V-L1. -/
theorem test_lit_0 : seen (.lit 0) (bench [] ⟨9, 11, 12, 13, 14, 15⟩ 4) =
    some (⟨0, 11, 12, 13, 14, 15⟩, 5, .cont) := by decide

/-- V-J1. -/
theorem test_jnv : pcAfter .jnv 5 0 2 = some 3 ∧ pcAfter .jnv 5 128 2 = some 3 := by decide
/-- V-J3. -/
theorem test_jez_taken : pcAfter .jez 5 0 2 = some 5 := by decide
/-- V-J4. -/
theorem test_jez_not : pcAfter .jez 5 1 2 = some 3 := by decide
/-- V-J2, rows 0, 127, 128. -/
theorem test_jgz : pcAfter .jgz 5 127 2 = some 5 ∧ pcAfter .jgz 5 0 2 = some 3 ∧ pcAfter .jgz 5 128 2 = some 3 := by decide
/-- V-J8. -/
theorem test_jgez_not : pcAfter .jgez 0 128 7 = some 8 := by decide
/-- V-J2, row 0. -/
theorem test_jgez_taken : pcAfter .jgez 5 0 2 = some 5 := by decide
/-- V-J5. -/
theorem test_jmp : pcAfter .jmp 200 0 2 = some 200 ∧ pcAfter .jmp 200 255 2 = some 200 := by decide
/-- V-J2, rows 0 and 255. -/
theorem test_jnz : pcAfter .jnz 5 0 2 = some 3 ∧ pcAfter .jnz 5 255 2 = some 5 := by decide
/-- V-J2, rows 0, 1, 128. -/
theorem test_jlez : pcAfter .jlez 5 0 2 = some 5 ∧ pcAfter .jlez 5 1 2 = some 3 ∧ pcAfter .jlez 5 128 2 = some 5 := by decide
/-- V-J9. -/
theorem test_jlz_taken : pcAfter .jlz 0 128 7 = some 0 := by decide
/-- V-J2, row 127. -/
theorem test_jlz_not : pcAfter .jlz 5 127 2 = some 3 := by decide

/-- V-M2. -/
theorem test_movRegReg : seen (.movRegReg .x1 .x5) moveStart = some (⟨10, 11, 12, 13, 14, 11⟩, 5, .cont) := by decide
/-- V-M4. -/
theorem test_movRegReg_back : seen (.movRegReg .x5 .x0) moveStart = some (⟨15, 11, 12, 13, 14, 15⟩, 5, .cont) := by decide
/-- V-M5. -/
theorem test_movInReg : nextOf (exec (.movInReg .x2) { moveStart with inbuf := [255, 1] }) =
    some { moveStart with
      x := ⟨10, 11, 255, 13, 14, 15⟩, pc := 5, inbuf := [1], result := .cont
      snapshot := some ⟨⟨10, 11, 255, 13, 14, 15⟩, 5, .cont⟩ } := by decide
/-- V-M9, its first step. -/
theorem test_movInReg_suspends :
    nextOf (exec (.movInReg .x1) { moveStart with inputMode := .interactive }) =
      some { moveStart with
        inputMode := .interactive, result := .suspendedForInput
        snapshot := some ⟨moveStart.x, 4, .suspendedForInput⟩ } := by decide
/-- V-M6. -/
theorem test_movRegOut : (nextOf (exec (.movRegOut .x2) moveStart)).map (fun t => (t.out, t.acc, t.pc, t.result)) =
    some ([0x0C], [], 5, .cont) := by decide
/-- V-M13. -/
theorem test_movRegOut_reports :
    (nextOf (exec (.movRegOut .x0) { bench [] ⟨0x44, 0, 0, 0, 0, 0⟩ 4 with acc := [0x80, 0x41, 0x42] })).map
      (fun t => (t.out, t.acc, t.pc, t.result)) = some ([], [], 5, .error .invalidUtf8Lexeme) := by decide
/-- V-M8. -/
theorem test_movInOut_pends :
    (nextOf (exec .movInOut { moveStart with inbuf := [0xC3, 0xA9] })).map
      (fun t => (t.out, t.acc, t.inbuf, t.pc, t.result)) = some ([], [0xC3], [0xA9], 5, .cont) := by decide
/-- V-E3. -/
theorem test_movInOut_exhausted :
    (nextOf (exec .movInOut { moveStart with acc := [0x80, 0x41, 0x42] })).map (fun t => (t.acc, t.pc, t.result)) =
      some ([0x80, 0x41, 0x42], 4, .error .notEnoughInput) := by decide

/-- V-A1, V-A5. -/
theorem test_add : x3After .add 200 100 = some 44 ∧ x3After .add 200 56 = some 0 := by decide
/-- V-A19. -/
theorem test_add_frame : seen .add (bench [] ⟨7, 200, 100, 9, 1, 2⟩ 0) = some (⟨7, 200, 100, 44, 1, 2⟩, 1, .cont) := by decide
/-- V-A15. -/
theorem test_and : x3After .and 204 170 = some 136 := by decide
/-- V-A15. -/
theorem test_or : x3After .or 204 170 = some 238 := by decide
/-- V-A15. -/
theorem test_xor : x3After .xor 204 170 = some 102 := by decide
/-- V-A10, V-A17: the direction of the subtraction. -/
theorem test_sub : x3After .sub 3 5 = some 254 ∧ x3After .sub 100 200 = some 156 := by decide
/-- V-A15. -/
theorem test_nand : x3After .nand 204 170 = some 119 := by decide
/-- V-A15. -/
theorem test_nor : x3After .nor 204 170 = some 17 := by decide
/-- V-A15. -/
theorem test_xnor : x3After .xnor 204 170 = some 153 := by decide

/-- V-J10. -/
theorem test_illegalConditional : seen .illegalConditional (bench [] ⟨5, 0, 0, 0, 0, 0⟩ 1) =
    some (⟨5, 0, 0, 0, 0, 0⟩, 1, .error .invalidConditional) := by decide
/-- V-M12. -/
theorem test_illegalMoveFrom : (nextOf (exec .illegalMoveFrom { moveStart with inbuf := [5] })).map
    (fun t => (t.inbuf, t.pc, t.result)) = some ([5], 4, .error .invalidMoveFrom) := by decide
/-- V-M11. -/
theorem test_illegalMoveTo : (nextOf (exec .illegalMoveTo { moveStart with inbuf := [5] })).map
    (fun t => (t.inbuf, t.pc, t.result)) = some ([5], 4, .error .invalidMoveTo) := by decide
/-- V-A20. -/
theorem test_illegalArithmetic : seen .illegalArithmetic (bench [] ⟨7, 200, 100, 9, 1, 2⟩ 0) =
    some (⟨7, 200, 100, 9, 1, 2⟩, 0, .error .invalidArithmetic) := by decide

/-! ### The output port -/

/-- V-U4 and V-U27. -/
theorem test_output_wellFormed :
    writeAll utf8Valid [] [0xF0, 0x9F, 0x98, 0x80] = ⟨[], [0x1F600], 0⟩ ∧
    writeAll utf8Valid [] [0x41, 0xC3, 0xA9, 0x42] = ⟨[], [0x41, 0xE9, 0x42], 0⟩ := by decide

/-- V-U16, V-U17, V-U19, V-U20, V-U23, V-U25. -/
theorem test_output_malformed :
    writeAll utf8Valid [] [0x80, 0x41, 0x42, 0x43, 0x44] = ⟨[], [0x44], 1⟩ ∧
    writeAll utf8Valid [] [0xC3, 0x41, 0x42, 0x43, 0x44] = ⟨[], [0x44], 1⟩ ∧
    writeAll utf8Valid [] [0xED, 0xA0, 0x80, 0x41] = ⟨[], [], 1⟩ ∧
    writeAll utf8Valid [] [0xF4, 0x90, 0x80, 0x80] = ⟨[], [], 1⟩ ∧
    writeAll utf8Valid [] [0xE0, 0x9F, 0xBF, 0x41] = ⟨[], [], 1⟩ ∧
    writeAll utf8Valid [] [0xC3, 0xC3, 0xA9, 0x41, 0x42] = ⟨[], [0x42], 1⟩ := by decide

/-- Another predicate may be given (spec/10_state.md R24): a table that also admits surrogates delivers one by R47's
formula, 0xD800 for ED A0 80, where R49's keeps waiting (V-U19). -/
theorem test_output_other_predicate :
    writeAll (Utf8Table.accepts ([(0xED, 0xED), (0xA0, 0xBF), (0x80, 0xBF)] :: standardUtf8)) [] [0xED, 0xA0, 0x80] =
      ⟨[], [0xD800], 0⟩ ∧
    (nextOf (exec (.movRegOut .x0) { moveStart with utf8Table := [] })).map (fun t => (t.out, t.acc)) =
      some ([], [10]) := by decide

/-! ### The controller -/

/-- V-R8: the load does not look at the bytes; the first step finds them illegal. -/
theorem test_load_illegal_byte :
    (nextOf (steps 2 { State.reset with sched := [some (.load [0xFF] [] .buffered), some .stepOnce] })).map
      (fun t => (t.loaded, t.pc, t.result, t.mode)) = some (true, 0, .error .invalidArithmetic, .idle) := by decide

/-- V-R10 and V-R11, the step in question: a run pauses on the report or goes on past it. -/
theorem test_run_and_report :
    let s := { bench [0x86] ⟨0x44, 0, 0, 0, 0, 0⟩ 0 with acc := [0x80, 0x41, 0x42], sched := [some .runToCompletion] }
    (nextOf (step s)).map State.mode = some .idle ∧
    (nextOf (step { s with stopOnUtf8 := false })).map State.mode = some .runToCompletion := by decide

/-! ### Witnesses: the hypotheses of every statement that has any are met together -/

/-- A program of one byte, Idle at its start. -/
abbrev one (b : Byte) : State := bench [b] ⟨0, 0, 0, 0, 0, 0⟩ 0

theorem witness_DecodeEncodeAgree :
    (Instr.lit 63).wellFormed = true ∧ Instr.movInOut.wellFormed = true ∧ (decode 0x00).wellFormed = true ∧
    (decode 0xC7).wellFormed = true ∧ Instr.illegalMoveTo.wellFormed = false ∧ (decode 0x48).wellFormed = false ∧
    (decode 0xFF).wellFormed = false ∧ [Reg.x0, .x1, .x2, .x3, .x4, .x5][0]? = some .x0 ∧
    [Reg.x0, .x1, .x2, .x3, .x4, .x5][5]? = some .x5 := by decide

theorem witness_OpcodeMapOfAllBytes :
    63 < 64 ∧ (0x48 < 256 ∧ 0x48 ≤ 0x48 ∧ 0x48 ≤ 0x7F) ∧ (0x7F < 256 ∧ 0x48 ≤ 0x7F) ∧
    [Reg.x0, .x1, .x2, .x3, .x4, .x5][0]? = some .x0 ∧ [Reg.x0, .x1, .x2, .x3, .x4, .x5][5]? = some .x5 ∧
    6 < 7 ∧ (0xB8 < 256 ∧ 0xB8 ≤ 0xBF) ∧ 0xBF < 256 ∧ (0xC8 < 256 ∧ 0xC8 ≤ 0xC8) ∧ 0xFF < 256 := by decide

theorem witness_BeforeFirstLoadNothingRuns : Command.stepOnce ∈ [Command.stepOnce, .runToCompletion] := by decide

theorem witness_ResetCommandRestores :
    ∃ s : State, s.mode = .idle ∧ s.sched = some .reset :: [none] := ⟨{ one 0 with sched := [some .reset, none] }, rfl, rfl⟩

/-- Lengths 0 and 256 for the refused load, 1 and 255 for the accepted one, and a load during a run. -/
theorem witness_LoadChecksTheLength :
    (∀ n ∈ [0, 256], ∃ s : State, ∃ prog : List Byte, s.sched = some (.load prog [] .buffered) :: [] ∧ s.mode = .idle ∧
      prog.length = n ∧ (prog.length = 0 ∨ 255 < prog.length)) ∧
    (∀ n ∈ [1, 255], ∃ s : State, ∃ prog : List Byte, s.sched = some (.load prog [7] .interactive) :: [] ∧
      s.mode = .idle ∧ prog.length = n ∧ 1 ≤ prog.length ∧ prog.length ≤ 255) ∧
    ∃ s : State, s.sched = some (.load [1] [] .buffered) :: [] ∧ s.mode = .runToCompletion := by
  refine ⟨fun n hn => ?_, fun n hn => ?_, { one 0 with mode := .runToCompletion, sched := [some (.load [1] [] .buffered)] },
    rfl, rfl⟩
  · exact ⟨{ one 0 with sched := [some (.load (List.replicate n 0) [] .buffered)] }, List.replicate n 0, rfl, rfl,
      by simp, by simp at hn ⊢; omega⟩
  · exact ⟨{ one 0 with sched := [some (.load (List.replicate n 0) [7] .interactive)] }, List.replicate n 0, rfl, rfl,
      by simp, by simp at hn ⊢; omega, by simp at hn ⊢; omega⟩

/-- An abort in Idle, a step command with nothing loaded, a reset during a run; and a step that has a next state. -/
theorem witness_CommandsOutsideTheirModeIgnored :
    (∃ s : State, s.mode ≠ .singleStep ∧ s.sched = some .abort :: [] ∧ s.mode ≠ .runToCompletion) ∧
    (∃ s : State, s.mode ≠ .singleStep ∧ s.sched = some .stepOnce :: [] ∧ s.loaded = false) ∧
    (∃ s : State, s.mode ≠ .singleStep ∧ s.sched = some .reset :: [] ∧ s.mode ≠ .idle) ∧
    ∃ t, (one 0).mode ≠ .singleStep ∧ step (one 0) = .next t :=
  ⟨⟨{ one 0 with sched := [some .abort] }, by decide⟩, ⟨{ State.reset with sched := [some .stepOnce] }, by decide⟩,
    ⟨{ one 0 with mode := .runToCompletion, sched := [some .reset] }, by decide⟩, _, by decide, rfl⟩

theorem witness_AppendedBytesJoinTheEnd :
    ∀ m : InputMode, ∃ s : State, s.mode = .idle ∧ s.inputMode = m ∧
      s.sched = [7, 8].map (fun b => some (Command.appendInput b)) ++ [none] :=
  fun m => ⟨{ one 0 with inputMode := m, sched := [some (.appendInput 7), some (.appendInput 8), none] }, rfl, rfl, rfl⟩

theorem witness_AbortOnlyReturnsToIdle :
    let s := { one 0x44 with mode := .runToCompletion, sched := [some Command.abort] }
    s.mode = .runToCompletion ∧ s.sched = some .abort :: [] := by decide

theorem witness_IdleIsFrozen :
    ((one 0).mode = .idle ∧ (one 0).sched = []) ∧
    ({ one 0 with sched := [none] }.mode = .idle ∧ { one 0 with sched := [none] }.sched = none :: []) := by decide

/-- Each of the five clauses, at the first and at the last index of a program. -/
theorem witness_StepRunsTheDecodedInstruction :
    ∀ pc ∈ [(0 : Byte), 1],
      let s := bench [0x3F, 0x86] ⟨0, 0, 0, 0, 0, 0⟩ pc
      s.loaded = true ∧ s.pc.toNat < s.plen ∧ (s.prog.read s.pc.toNat).isSome = true ∧
      ({ s with mode := .runToCompletion }.mode = .runToCompletion ∧ { s with mode := .runToCompletion }.sched = []) ∧
      { s with mode := .runToCompletion, sched := [none] }.sched = none :: [] ∧
      (s.mode = .idle ∧ { s with sched := [some .stepOnce] }.sched = some .stepOnce :: [] ∧
        { s with sched := [some .runToCompletion] }.sched = some .runToCompletion :: []) ∧
      { s with mode := .singleStep }.mode = .singleStep := by decide

/-- At `pc = PLEN` (V-S1) and beyond (V-S2), and an instruction with a next state. -/
theorem witness_FetchPastEndHalts :
    (∀ pc ∈ [(1 : Byte), 200],
      let s := bench [0x00] ⟨0, 0, 0, 0, 0, 0⟩ pc
      s.loaded = true ∧ s.plen ≤ s.pc.toNat ∧
      ({ s with mode := .runToCompletion }.mode = .runToCompletion ∧ { s with mode := .runToCompletion }.sched = []) ∧
      { s with mode := .runToCompletion, sched := [none] }.sched = none :: [] ∧
      (s.mode = .idle ∧ { s with sched := [some .stepOnce] }.sched = some .stepOnce :: [] ∧
        { s with sched := [some .runToCompletion] }.sched = some .runToCompletion :: []) ∧
      { s with mode := .singleStep }.mode = .singleStep) ∧
    ∃ t, exec .add (one 0xC0) = .next t := ⟨by decide, _, rfl⟩

theorem witness_HaltedStaysHalted :
    let s := { bench [0x00] ⟨0, 0, 0, 0, 0, 0⟩ 1 with sched := List.replicate 3 (some .stepOnce) }
    s.mode = .idle ∧ s.loaded = true ∧ s.plen ≤ s.pc.toNat ∧ s.sched = List.replicate (2 + 1) (some .stepOnce) := by decide

/-- An illegal byte, and an exhausted input. -/
theorem witness_FatalErrorsRepeat :
    (∃ t, { one 0xC8 with sched := [some .stepOnce, some .stepOnce] }.mode = .idle ∧ (one 0xC8).loaded = true ∧
      step { one 0xC8 with sched := [some .stepOnce, some .stepOnce] } = .next t ∧
      t.result = .error .invalidArithmetic ∧ ErrorKind.invalidArithmetic.fatal = true) ∧
    (∃ t, { one 0xB6 with sched := [some .stepOnce, some .stepOnce] }.mode = .idle ∧ (one 0xB6).loaded = true ∧
      step { one 0xB6 with sched := [some .stepOnce, some .stepOnce] } = .next t ∧
      t.result = .error .notEnoughInput ∧ ErrorKind.notEnoughInput.fatal = true) :=
  ⟨⟨_, rfl, rfl, rfl, rfl, rfl⟩, ⟨_, rfl, rfl, rfl, rfl, rfl⟩⟩

theorem witness_FatalErrorChangesNothing :
    ∃ t, exec .illegalMoveTo (one 0xB7) = .next t ∧ t.result = .error .invalidMoveTo ∧
      ErrorKind.invalidMoveTo.fatal = true := ⟨_, rfl, rfl, rfl⟩

/-- A Move that suspends, and an instruction that does not. -/
theorem witness_SuspensionChangesNothing :
    (∃ t, exec .movInOut { one 0xB6 with inputMode := .interactive } = .next t ∧ t.result = .suspendedForInput) ∧
    ∃ t, exec .jmp (one 0x44) = .next t := ⟨⟨_, rfl, rfl⟩, _, rfl⟩

theorem witness_LoadLiteralResult : (0x00 : Byte) >>> 6 = 0 ∧ (0x3F : Byte) >>> 6 = 0 := by decide

theorem witness_PredicateBitTwoInverts : 0 < 4 ∧ 3 < 4 := by decide

/-- V-J7, on a program of one jump: the target is PLEN itself. -/
theorem witness_JumpPastEndThenHalts :
    let s := { bench [0x44] ⟨1, 0, 0, 0, 0, 0⟩ 0 with sched := [some .stepOnce, some .stepOnce] }
    s.mode = .idle ∧ s.loaded = true ∧ s.sched = [some .stepOnce, some .stepOnce] ∧ s.pc.toNat < s.plen ∧
    s.prog.read s.pc.toNat = some 0x44 ∧ s.plen ≤ s.x.x0.toNat := by decide

/-- V-S6, after its first step. -/
theorem witness_JumpToItselfNeverEnds :
    let s := { bench [0x01, 0x44] ⟨1, 0, 0, 0, 0, 0⟩ 1 with mode := .runToCompletion }
    s.mode = .runToCompletion ∧ s.loaded = true ∧ s.sched = [] ∧ s.pc.toNat < s.plen ∧
    s.prog.read s.pc.toNat = some 0x44 ∧ s.x.x0 = s.pc := by decide

theorem witness_NormalisationIsModulo256 : (-256 ≤ (-256 : Int) ∧ (-256 : Int) ≤ 510) ∧ (-256 ≤ (510 : Int) ∧ (510 : Int) ≤ 510) := by
  decide

theorem witness_MoveRegisterToRegister : Reg.x3 = Reg.x3 := by decide

/-- Each clause of the two statements about moves from the input port. -/
theorem witness_MovesFromInput :
    { one 0xB6 with inbuf := [5] }.inbuf = 5 :: [] ∧
    ({ one 0xB6 with inputMode := .interactive }.inbuf = [] ∧
      { one 0xB6 with inputMode := .interactive }.inputMode = .interactive) ∧
    ((one 0xB6).inbuf = [] ∧ (one 0xB6).inputMode = .buffered) := by decide

theorem witness_ReportedMoveHasCompleted :
    (outWrite (one 0x86).utf8Table.accepts [0x80, 0x41, 0x42] ((one 0x86).x.read .x0)).report = true ∧
    { one 0xB6 with inbuf := [0x43] }.inbuf = 0x43 :: [] ∧ (outWrite (one 0xB6).utf8Table.accepts [0x80, 0x41, 0x42] 0x43).report = true := by decide

/-- Both ends of each range of illegal bytes, and of the list of seven. -/
theorem witness_IllegalBytesRaiseTheirError :
    (0x48 ≤ (0x48 : Byte).toNat ∧ (0x48 : Byte).toNat ≤ 0x7F) ∧ (0x48 ≤ (0x7F : Byte).toNat ∧ (0x7F : Byte).toNat ≤ 0x7F) ∧
    (0xB8 ≤ (0xB8 : Byte).toNat ∧ (0xB8 : Byte).toNat ≤ 0xBF) ∧ (0xB8 ≤ (0xBF : Byte).toNat ∧ (0xBF : Byte).toNat ≤ 0xBF) ∧
    (0x87 : Byte) ∈ [(0x87 : Byte), 0x8F, 0x97, 0x9F, 0xA7, 0xAF, 0xB7] ∧
    (0xB7 : Byte) ∈ [(0x87 : Byte), 0x8F, 0x97, 0x9F, 0xA7, 0xAF, 0xB7] ∧
    0xC8 ≤ (0xC8 : Byte).toNat ∧ 0xC8 ≤ (0xFF : Byte).toNat := by decide

/-- The scalar values at the ends of their two ranges. -/
theorem witness_ValidSequencesEncodeScalars :
    isScalar 0 ∧ isScalar 0xD7FF ∧ isScalar 0xE000 ∧ isScalar 0x10FFFF := by decide

/-- A write that completes a character, and two that complete none: a first byte of no character, and the fourth
byte of a malformed sequence (V-U22, V-U16). -/
theorem witness_OutputPortByCharacters :
    (isScalar 0x20AC ∧ [0xE2, 0x82] ++ [(0xAC : Byte)] = utf8Encode 0x20AC) ∧
    (∀ c, isScalar c → [] ++ [(0xF8 : Byte)] ≠ utf8Encode c) ∧
    (∀ c, isScalar c → [0x80, 0x41, 0x42] ++ [(0x43 : Byte)] ≠ utf8Encode c) := by
  refine ⟨by decide, fun c _ h => ?_, fun c _ h => ?_⟩
  · unfold utf8Encode at h
    simp only at h
    split at h
    · have h' := congrArg BitVec.toNat (List.cons.inj h).1
      simp only [BitVec.toNat_ofNat, show (0xF8 : Byte).toNat = 248 from rfl] at h'
      omega
    · split at h
      · simp at h
      · split at h <;> simp at h
  · unfold utf8Encode at h
    simp only at h
    split at h
    · simp at h
    · split at h
      · simp at h
      · split at h
        · simp at h
        · have h' := congrArg BitVec.toNat (List.cons.inj h).1
          simp only [BitVec.toNat_ofNat, show (0x80 : Byte).toNat = 128 from rfl] at h'
          have := c.isLt
          omega

/-- The table's own predicate and one that accepts everything, on four characters of each length. -/
theorem witness_WellFormedOutputIsDelivered :
    (∀ a, utf8Valid a = true → utf8Valid a = true) ∧
    (∀ a, utf8Valid a = true → (fun _ : List Byte => true) a = true) ∧
    (∀ c ∈ [(0x3F : CodePoint), 0xE9, 0x20AC, 0x1F600], isScalar c) :=
  ⟨fun _ h => h, fun _ _ => rfl, fun c hc => by
    simp only [List.mem_cons, List.not_mem_nil, or_false] at hc
    rcases hc with rfl | rfl | rfl | rfl <;> decide⟩

theorem witness_FragmentsAreScalars :
    let s := { one 0x86 with out := [0x41], sched := [some .stepOnce] }
    (∀ a, s.utf8Table.accepts a = true → utf8Valid a = true) ∧ (∀ c ∈ s.out, isScalar c) ∧
      ∃ t, step s = .next t ∧ t.out = [0x41, 0] :=
  ⟨fun _ h => h, fun c hc => (by simpa using hc : c = 0x41) ▸ (by decide : isScalar 0x41), _, rfl, rfl⟩

/-- A loaded machine at its start meets the invariant. -/
theorem bench_inv (bytes : List Byte) (pc : Byte) (h1 : 1 ≤ bytes.length) (h2 : bytes.length ≤ 255) :
    (bench bytes ⟨0, 0, 0, 0, 0, 0⟩ pc).Inv where
  store := (memory_cellsFrom_keys 0 bytes).trans (List.range_eq_range' ..).symm
  length_le := h2
  length_pos := fun _ => h1
  runs_loaded := fun _ => rfl
  not_inside := nofun
  acc_short := Nat.zero_le 3
  acc_lead := fun _ => nofun
  input_order := fun _ => List.suffix_refl _
  result_raisable := fun _ _ => nofun

theorem witness_EveryStepKeepsTheInvariant : (one 0x86).Inv := bench_inv [0x86] 0 (by decide) (by decide)

/-- The last index of the longest program. -/
theorem witness_PcIncrementNeverWraps :
    let s := bench (List.replicate 255 0) ⟨0, 0, 0, 0, 0, 0⟩ 254
    s.Inv ∧ s.pc.toNat < s.plen := by
  intro s
  have h : (List.replicate 255 (0 : Byte)).length = 255 := List.length_replicate
  exact ⟨bench_inv _ _ (by rw [h]; omega) (by rw [h]), by show (254 : Byte).toNat < (List.replicate 255 (0 : Byte)).length; rw [h]; decide⟩

theorem witness_StepCommandProducesResult :
    let s := { one 0x86 with sched := [some Command.stepOnce] }
    s.Inv ∧ s.mode = .idle ∧ s.loaded = true ∧ s.sched = some .stepOnce :: [] :=
  ⟨{ bench_inv [0x86] 0 (by decide) (by decide) with }, rfl, rfl, rfl⟩

theorem witness_OnlyLoadChangesTheProgram :
    let s := { one 0x86 with sched := [some Command.reset] }
    (∃ t, step s = .next t) ∧
      ¬ (s.mode = .idle ∧ ∃ prog input0 m rest, s.sched = some (.load prog input0 m) :: rest) :=
  ⟨⟨_, rfl⟩, by rintro ⟨-, _, _, _, _, h⟩; cases h⟩

theorem witness_RegistersReadAndWritten : Reg.x0 ∉ Instr.add.writes ∧ Reg.x3 ∉ Instr.add.reads ∧ Reg.x3 ∈ Instr.add.writes := by
  decide

/-- V-J4. -/
theorem witness_UntakenJumpIgnoresTarget :
    let s := bench [] ⟨5, 0, 0, 1, 0, 0⟩ 2
    Instr.jez.isJump = true ∧ exec .jez s = .next (endedNext s) ∧ s.pc + 1 ≠ s.x.x0 := ⟨rfl, rfl, by decide⟩

/-- The one hypothesis of StepEffectsAreBounded, SnapshotShowsTheStep and RunGoesOnByResultAndParameter, in a run and
outside. -/
theorem witness_exec_has_next_state :
    (∃ t, exec .movInOut { one 0xB6 with inbuf := [0x41], mode := .runToCompletion } = .next t ∧
      t.mode = .runToCompletion) ∧
    (∃ t, exec .illegalArithmetic { one 0xC8 with mode := .runToCompletion } = .next t ∧ t.mode ≠ .runToCompletion) ∧
    ∃ t, (one 0xC0).mode ≠ .runToCompletion ∧ exec .add (one 0xC0) = .next t :=
  ⟨⟨_, rfl, by decide⟩, ⟨_, rfl, by decide⟩, _, by decide, rfl⟩

theorem witness_UnreachableErrorsNeverArise :
    (one 0xC8).result.raisable ∧ ∃ t, step { one 0xC8 with sched := [some .stepOnce] } = .next t :=
  ⟨fun _ _ => nofun, _, rfl⟩

theorem witness_InputModesAgreeOnBytes : { one 0xB6 with inbuf := [0x41] }.inbuf ≠ [] := by decide

/-- An instruction that writes no port, and one that does under a predicate that agrees on what it is asked. -/
theorem witness_Utf8PredicateActsAtTheOutputAlone :
    Instr.add.writesOutput = false ∧
    (Instr.movInOut.writesOutput = true ∧
      ∀ v : Byte, Utf8Table.accepts ([(0xED, 0xED), (0xA0, 0xBF), (0x80, 0xBF)] :: standardUtf8) ((one 0xB6).acc ++ [v]) =
        (one 0xB6).utf8Table.accepts ((one 0xB6).acc ++ [v])) := by decide

/-- A run of two steps that has not ended after its first. -/
theorem witness_RunIsRepeatedSingleSteps :
    let s := bench [0x3F, 0x86] ⟨0, 0, 0, 0, 0, 0⟩ 0
    s.mode = .idle ∧ s.loaded = true ∧ (∃ a, steps (1 + 1) { s with sched := [some .runToCompletion] } = .next a) ∧
    ∀ k c, 1 ≤ k → k ≤ 1 → steps k { s with sched := [some .runToCompletion] } = .next c → c.mode = .runToCompletion := by
  refine ⟨rfl, rfl, ⟨_, rfl⟩, fun k c h1 h2 h => ?_⟩
  obtain rfl : k = 1 := by omega
  cases h
  rfl

/-- V-M9. -/
theorem witness_SuspendThenResume :
    let s := { one 0xB1 with
      inputMode := .interactive, sched := [some .stepOnce, some (.appendInput 7), some .stepOnce] }
    s.mode = .idle ∧ s.loaded = true ∧ s.inputMode = .interactive ∧ s.inbuf = [] ∧ s.pc.toNat < s.plen ∧
    s.prog.read s.pc.toNat = some 0xB1 ∧ decode 0xB1 = .movInReg .x1 ∧
    s.sched = [some .stepOnce, some (.appendInput 7), some .stepOnce] := by decide

end Sys2Proof.Tests
end

section
/-!
The signed reading of a byte (spec/00_scope.md R7).
-/

namespace Sys2Proof.Proofs.SignedReading

open Sys2Proof Sys2Proof.Machine

/-- The model splits R7's reading at 127, the library's `toInt` at twice the value below 2^8: on each side of the
split the two formulas are one. -/
theorem sgn8_eq_toInt (v : Byte) : sgn8 v = v.toInt := by
  rw [sgn8, BitVec.toInt_eq_toNat_cond]
  split
  case isTrue low => rw [if_pos (by omega)]
  case isFalse high => rw [if_neg (by omega)]; rfl

theorem sgn8_ge (v : Byte) : -128 ≤ sgn8 v := by
  simpa [sgn8_eq_toInt] using BitVec.le_toInt v

theorem sgn8_le (v : Byte) : sgn8 v ≤ 127 := by
  have below : sgn8 v < 128 := by simpa [sgn8_eq_toInt] using BitVec.toInt_lt (x := v)
  omega

/-- Settles O20: the agreement with the library's reading, and the library's bounds on it. -/
theorem signedReadingIsTwosComplement : Obligations.SignedReadingIsTwosComplement :=
  fun v => ⟨sgn8_eq_toInt v, sgn8_ge v, sgn8_le v⟩

end Sys2Proof.Proofs.SignedReading
end

section
/-!
The invariant of the machine (spec/20_memory.md R38, R43, R50; spec/30_encoding.md R71; spec/45_run_driver.md R161).
A step command sets mode SingleStep before its step, so the facts that hold inside a step are those of the machine
with its mode put back to Idle: `parked`. The end of the step restores the rest.
-/

namespace Sys2Proof.Proofs.Invariant

open Sys2Proof Sys2Proof.Machine

/-! ### Results that some rule gives -/

/-- No row of R147's table holds an error of `neverRaised`. -/
theorem results_raisable (i : Instr) : ∀ r ∈ i.results, r.raisable := by
  cases i <;> simp [Instr.results, StepResult.raisable, neverRaised]

theorem none_raisable : StepResult.none.raisable := fun _ _ => nofun
theorem cont_raisable : StepResult.cont.raisable := fun _ _ => nofun
theorem halted_raisable : StepResult.halted.raisable := fun _ _ => nofun
theorem suspended_raisable : StepResult.suspendedForInput.raisable := fun _ _ => nofun

theorem error_raisable_iff (k : ErrorKind) : (StepResult.error k).raisable ↔ k ∉ neverRaised := by
  simp only [StepResult.raisable, ne_eq, StepResult.error.injEq]
  exact ⟨fun h mem => h k mem rfl, fun h _ mem e => h (e ▸ mem)⟩

/-! ### The accumulator between two writes -/

/-- Bit 7 clear is a value up to 7F. -/
theorem le_of_expLen_one {b : Byte} (h : expLen b = some 1) : b.toNat ≤ 0x7F := by
  have bit7 : b.extractLsb' 7 1 = 0b0#1 := by
    by_contra hne
    simp only [expLen, if_neg hne] at h
    split_ifs at h <;> simp at h
  have := congrArg BitVec.toNat bit7
  simp only [BitVec.extractLsb'_toNat, BitVec.toNat_ofNat] at this
  omega

theorem outWrite_acc_length {acc : List Byte} (valid : List Byte → Bool) (b : Byte) (h : acc.length ≤ 3) :
    (outWrite valid acc b).acc.length ≤ 3 := by
  rcases outWrite_cases valid acc b with ⟨_, _, e⟩ | ⟨_, _, e⟩ | ⟨_, short, e⟩ <;> rw [e]
  · exact Nat.zero_le 3
  · exact Nat.zero_le 3
  · simp only [List.length_append, List.length_singleton]
    omega

/-- The byte that opens the accumulator is not a whole character: that one would have been flushed when written. -/
theorem outWrite_acc_lead {valid : List Byte → Bool} {acc : List Byte} (b : Byte)
    (ascii : ∀ c : Byte, c.toNat ≤ 0x7F → valid [c] = true) (h : accExpLen acc ≠ some 1) :
    accExpLen (outWrite valid acc b).acc ≠ some 1 := by
  rcases outWrite_cases valid acc b with ⟨_, _, e⟩ | ⟨_, _, e⟩ | ⟨waits, _, e⟩ <;> rw [e]
  · exact nofun
  · exact nofun
  · cases acc with
    | nil => exact fun whole => waits ⟨whole, ascii b (le_of_expLen_one whole)⟩
    | cons f rest => exact h

/-! ### Inside a step -/

/-- The machine with its mode put back to Idle. -/
def parked (s : State) : State := { s with mode := .idle }

theorem parked_inv {s : State} (h : s.Inv) : (parked s).Inv :=
  { h with runs_loaded := nofun, not_inside := nofun }

/-- With the rest of the invariant, a loaded machine meets it in any mode but SingleStep. -/
theorem inv_of_parked {s : State} (h : (parked s).Inv) (loaded : s.loaded = true) (outside : s.mode ≠ .singleStep) :
    s.Inv :=
  { h with runs_loaded := fun _ => loaded, not_inside := outside }

/-- The end of a step brings the invariant back. -/
theorem ended_inv {s : State} {r : StepResult} (h : (parked s).Inv) (loaded : s.loaded = true) (hr : r.raisable) :
    (ended r s).Inv := by
  refine inv_of_parked { h with result_raisable := hr } loaded ?_
  rcases ended_mode_cases r s with ⟨e, _⟩ | ⟨e, _⟩ <;> rw [e] <;> exact nofun

/-- What input is left after a byte is taken is still the end of the supplied input. -/
theorem parked_take_input {s : State} {b : Byte} {rest : List Byte} (h : (parked s).Inv) (hb : s.inbuf = b :: rest) :
    (parked { s with inbuf := rest }).Inv :=
  { h with
    input_order := fun m => (List.suffix_cons b rest).trans (hb ▸ h.input_order m) }

/-- A write to the output port, however it ends. -/
theorem moveTo_outPort_inv {s : State} (v : Byte) (h : (parked s).Inv) (loaded : s.loaded = true) :
    (moveTo .outPort v s).Inv := by
  rw [moveTo_outPort]
  refine ended_inv { h with acc_short := ?_, acc_lead := ?_ } loaded ?_
  · exact outWrite_acc_length _ v h.acc_short
  · exact fun ascii => outWrite_acc_lead v ascii (h.acc_lead ascii)
  · split
    · exact (error_raisable_iff _).2 (by decide)
    · exact cont_raisable

/-- Every instruction, by the kinds of effect an instruction can have. -/
theorem exec_inv (i : Instr) {s : State} (h : (parked s).Inv) (loaded : s.loaded = true) :
    ∃ t, exec i s = .next t ∧ t.Inv := by
  rcases exec_cases i s with ⟨d, v, _, _, e⟩ | ⟨_, e⟩ | ⟨_, e⟩ | ⟨d, b, rest, _, hb, e⟩ | ⟨v, rest, source, e⟩ |
    ⟨_, _, _, e⟩ | ⟨_, _, _, e⟩ | ⟨k, _, hk, e⟩ <;> refine ⟨_, e, ?_⟩
  · exact ended_inv { h with } loaded cont_raisable
  · exact ended_inv { h with } loaded cont_raisable
  · exact ended_inv { h with } loaded cont_raisable
  · exact ended_inv { parked_take_input h hb with } loaded cont_raisable
  · rcases source with ⟨_, _, _, rfl⟩ | ⟨_, hb⟩
    · exact moveTo_outPort_inv v h loaded
    · exact moveTo_outPort_inv v (parked_take_input h hb) loaded
  · exact ended_inv h loaded suspended_raisable
  · exact ended_inv h loaded ((error_raisable_iff _).2 (by decide))
  · exact ended_inv h loaded (results_raisable i _ (hk ▸ List.mem_singleton_self _))

/-- The store lists a byte at every index below PLEN, so that no fetch finds a hole. -/
theorem exists_read_of_lt {s : State} {a : Nat} (h : s.Inv) (lt : a < s.plen) : ∃ b, s.prog.read a = some b :=
  Option.isSome_iff_exists.1 ((memory_read_isSome _ _).2 (by rw [h.store]; exact List.mem_range.2 lt))

theorem engineStep_inv {s : State} (h : (parked s).Inv) (loaded : s.loaded = true) :
    ∃ t, engineStep s = .next t ∧ t.Inv := by
  rcases engineStep_cases s with ⟨_, e⟩ | ⟨_, b, _, e⟩ | ⟨lt, hole, _⟩
  · exact ⟨_, e, ended_inv h loaded halted_raisable⟩
  · exact e ▸ exec_inv (decode b) h loaded
  · obtain ⟨b, hb⟩ := exists_read_of_lt h lt
    exact absurd (hole.symm.trans hb) nofun

/-! ### The turns of core and host -/

theorem coreTurn_inv {s : State} (h : s.Inv) : ∃ t, coreTurn s = .next t ∧ t.Inv := by
  by_cases run : s.loaded = true ∧ s.mode ≠ .idle
  · rw [coreTurn_of_run run.1 run.2]
    exact engineStep_inv (parked_inv h) run.1
  · exact ⟨s, if_neg run, h⟩

/-- A reset asks only for a program store in order: it makes the rest anew. -/
theorem resetMachine_inv {s : State} (store : s.prog.map Prod.fst = List.range s.plen)
    (length_le : s.plen ≤ Config.maxProgramLength) (length_pos : s.loaded = true → Config.minProgramLength ≤ s.plen) :
    (resetMachine s).Inv where
  store := store
  length_le := length_le
  length_pos := length_pos
  runs_loaded := nofun
  not_inside := nofun
  acc_short := Nat.zero_le 3
  acc_lead := fun _ => nofun
  input_order := fun _ => List.suffix_refl _
  result_raisable := none_raisable

/-- A failed load in Idle: there is no program any more, and the error is one of the two of a load. -/
theorem loadFailed_inv {s : State} {k : ErrorKind} (h : s.Inv) (idle : s.mode = .idle) (hk : k ∉ neverRaised) :
    (loadFailed k s).Inv :=
  { h with
    length_pos := nofun
    runs_loaded := fun run => absurd (idle.symm.trans run) nofun
    result_raisable := (error_raisable_iff k).2 hk }

theorem ofBytes_indices (bytes : List Byte) : (Memory.ofBytes bytes).map Prod.fst = List.range bytes.length :=
  (memory_cellsFrom_keys 0 bytes).trans (List.range_eq_range' ..).symm

theorem loadMachine_inv {s : State} (prog input0 : List Byte) (m : InputMode) (h : s.Inv) (idle : s.mode = .idle) :
    (loadMachine prog input0 m s).Inv := by
  rcases loadMachine_cases prog input0 m s with ⟨_, e⟩ | ⟨_, e⟩ | ⟨pos, le, e⟩ <;> rw [e]
  · exact loadFailed_inv h idle (by decide)
  · exact loadFailed_inv h idle (by decide)
  · exact resetMachine_inv (ofBytes_indices prog) le fun _ => pos

/-- An append reaches the buffer in interactive mode alone, where its order is no claim of the invariant. -/
theorem appendInput_inv {s : State} (b : Byte) (h : s.Inv) : (appendInput b s).Inv := by
  rcases appendInput_cases b s with ⟨interactive, e⟩ | ⟨_, e⟩ <;> rw [e]
  · exact { h with input_order := fun buffered => absurd (interactive.symm.trans buffered) nofun }
  · exact h

theorem commandEffect_inv {s : State} (c : Command) (h : s.Inv) (ok : accepted c s = true) :
    ∃ t, commandEffect c s = .next t ∧ t.Inv := by
  cases c with
  | load prog input0 m => exact ⟨_, rfl, loadMachine_inv prog input0 m h (of_decide_eq_true ok)⟩
  | reset => exact ⟨_, rfl, resetMachine_inv h.store h.length_le h.length_pos⟩
  | stepOnce => exact engineStep_inv { parked_inv h with } (Bool.and_eq_true_iff.1 ok).2
  | runToCompletion => exact engineStep_inv { parked_inv h with } (Bool.and_eq_true_iff.1 ok).2
  | appendInput b => exact ⟨_, rfl, appendInput_inv b h⟩
  | abort => exact ⟨_, rfl, parked_inv h⟩

theorem hostTurn_inv {s : State} (c : Command) (h : s.Inv) : ∃ t, hostTurn c s = .next t ∧ t.Inv := by
  cases ok : accepted c s with
  | true => rw [hostTurn_of_accepted ok]; exact commandEffect_inv c h ok
  | false => exact ⟨s, hostTurn_of_ignored ok, h⟩

/-- Settles O39: by whose turn it is. The schedule is no part of the invariant. -/
theorem everyStepKeepsTheInvariant : Obligations.EveryStepKeepsTheInvariant := by
  intro s h
  rcases step_cases s with ⟨inside, _⟩ | ⟨_, _, e⟩ | ⟨_, rest, _, e⟩ | ⟨_, c, rest, _, e⟩
  · exact absurd inside h.not_inside
  · exact e ▸ coreTurn_inv h
  · exact e ▸ coreTurn_inv { h with }
  · exact e ▸ hostTurn_inv c { h with }

/-- Settles O40: the reset state is already as a reset leaves it, its store of no bytes in order. -/
theorem resetMeetsTheInvariant : Obligations.ResetMeetsTheInvariant :=
  resetMachine_inv (s := State.reset) rfl (Nat.zero_le _) nofun

/-- Settles O41: PLEN is at most 255, so a pc below it is at most 254. -/
theorem pcIncrementNeverWraps : Obligations.PcIncrementNeverWraps := by
  intro s h lt
  have le : s.plen ≤ 255 := h.length_le
  rw [BitVec.toNat_add]
  exact Nat.mod_eq_of_lt (show s.pc.toNat + 1 < 256 by omega)

end Sys2Proof.Proofs.Invariant
end

section
/-!
The registers as cells, and the state before the first load (spec/10_state.md R10, R25; spec/70_reset_and_hazards.md
R201).
-/

namespace Sys2Proof.Proofs.StartState

open Sys2Proof Sys2Proof.Machine

/-- Settles O28: a register's own cell holds the value written, another cell what it held. -/
theorem registersAreIndependent : Obligations.RegistersAreIndependent := by
  intro x r q v
  split
  case isTrue same => exact same ▸ regFile_read_write_self x r v
  case isFalse other => exact regFile_read_write_ne x r q v other

/-- R161 accepts neither step command while nothing is loaded. -/
theorem accepted_step_of_not_loaded {c : Command} {s : State} (hc : c ∈ [Command.stepOnce, .runToCompletion])
    (h : s.loaded = false) : accepted c s = false := by
  rcases List.mem_pair.1 hc with rfl | rfl <;> simp [accepted, h]

/-- Settles O5: the values are those of the reset state itself, and the host's turn ignores the command. -/
theorem beforeFirstLoadNothingRuns : Obligations.BeforeFirstLoadNothingRuns := by
  refine ⟨fun r => ?_, rfl, rfl, rfl, rfl, rfl, rfl, fun _ => rfl, rfl, rfl, fun c hc rest => ?_⟩
  · cases r <;> rfl
  · rw [step_of_command (show RunMode.idle ≠ .singleStep by decide) rfl,
      hostTurn_of_ignored (accepted_step_of_not_loaded hc rfl)]

end Sys2Proof.Proofs.StartState
end

section
/-!
What an instruction does, as a change laid on the state (spec/10_state.md R13, R20, R24; spec/20_memory.md R45): the
same change on every state that agrees on what the instruction reads. Every claim that something has no influence on
an instruction, or is left alone by it, is read off this.
-/

namespace Sys2Proof.Proofs.Effects

open Sys2Proof Sys2Proof.Machine

/-! ### The change -/

/-- What one instruction does: the register it writes, if it writes one, the pc, the input left, the accumulator, the
fragments delivered, and the result. -/
structure Change where
  wrote : Option (Reg × Byte) := none
  pc : Byte
  inbuf : List Byte
  acc : List Byte
  frags : List CodePoint := []
  result : StepResult

/-- The register file after the change. -/
def Change.regs (c : Change) (x : RegFile) : RegFile := c.wrote.elim x fun w => x.write w.1 w.2

/-- The state after a step that makes the change. -/
def Change.apply (c : Change) (s : State) : State :=
  ended c.result
    { s with x := c.regs s.x, pc := c.pc, inbuf := c.inbuf, acc := c.acc, out := s.out ++ c.frags }

/-- A change that delivers nothing leaves the output. -/
theorem Change.apply_of_silent {c : Change} (silent : c.frags = []) (s : State) :
    c.apply s = ended c.result { s with x := c.regs s.x, pc := c.pc, inbuf := c.inbuf, acc := c.acc } := by
  rw [apply, silent, List.append_nil]

/-- The change writes the one register of the instruction's row of R13 and completes, or it writes none, and then
completes only where the row is empty. -/
def Change.Fits (c : Change) (i : Instr) : Prop :=
  (c.wrote = none ∧ (c.result = .cont → i.writes = [])) ∨
  (∃ d v, c.wrote = some (d, v) ∧ i.writes = [d] ∧ c.result = .cont)

/-- A register after a change that fits: overwritten whatever the registers were, or as it was. -/
theorem Change.Fits.read_regs {c : Change} {i : Instr} (fits : c.Fits i) (q : Reg) :
    ((q ∈ i.writes ∧ c.result = .cont) ∧ ∃ w, ∀ x, (c.regs x).read q = w) ∨
    (¬ (q ∈ i.writes ∧ c.result = .cont) ∧ ∀ x, (c.regs x).read q = x.read q) := by
  rcases fits with ⟨unwritten, empty⟩ | ⟨d, v, written, row, cont⟩
  · refine .inr ⟨fun ⟨mem, cont⟩ => ?_, fun x => by rw [regs, unwritten]; rfl⟩
    exact List.not_mem_nil (empty cont ▸ mem)
  · have regs_eq (x : RegFile) : c.regs x = x.write d v := by rw [regs, written]; rfl
    rw [row, List.mem_singleton]
    by_cases own : q = d
    · exact .inl ⟨⟨own, cont⟩, v, fun x => by rw [regs_eq, own, regFile_read_write_self]⟩
    · exact .inr ⟨fun h => own h.1, fun x => by rw [regs_eq, regFile_read_write_ne x d q v own]⟩

/-! ### What an instruction reads -/

/-- The two states agree on all that the instruction reads: the registers of its row of R13, the pc, the input, the
accumulator, and what the output port would do if it writes there. -/
structure Agree (i : Instr) (s a : State) : Prop where
  regs : ∀ r ∈ i.reads, a.x.read r = s.x.read r
  pc : a.pc = s.pc
  inbuf : a.inbuf = s.inbuf
  inputMode : a.inputMode = s.inputMode
  acc : a.acc = s.acc
  port : i.writesOutput = true → ∀ v, portEffect a v = portEffect s v

theorem Agree.refl (i : Instr) (s : State) : Agree i s s := ⟨fun _ _ => rfl, rfl, rfl, rfl, rfl, fun _ _ => rfl⟩

/-- The instruction makes one change, the same on every state that agrees with `s`. -/
def MakesOneChange (i : Instr) (s : State) : Prop :=
  ∃ c : Change, c.Fits i ∧ ∀ a, Agree i s a → exec i a = .next (c.apply a)

/-! ### The classes -/

/-- An instruction that writes a register a value of the registers it reads. -/
theorem makesOneChange_of_write {i : Instr} {s : State} (d : Reg) (f : RegFile → Byte) (row : i.writes = [d])
    (meaning : ∀ a, exec i a = .next (continueNext (writeReg a d (f a.x))))
    (same : ∀ a, Agree i s a → f a.x = f s.x) : MakesOneChange i s := by
  refine ⟨⟨some (d, f s.x), s.pc + 1, s.inbuf, s.acc, [], .cont⟩, .inr ⟨d, _, rfl, row, rfl⟩, fun a h => ?_⟩
  rw [meaning, continueNext_eq, Change.apply_of_silent rfl, same a h]
  simp only [← h.pc, ← h.inbuf, ← h.acc]
  rfl

/-- The eight operations. -/
theorem makesOneChange_of_arith {i : Instr} {s : State} (f : Byte → Byte → Int) (writes : i.writes = [.x3])
    (reads : i.reads = [.x1, .x2]) (meaning : ∀ a, exec i a = .next (arith f a)) : MakesOneChange i s := by
  refine makesOneChange_of_write .x3 (fun x => normalise (f (x.read .x1) (x.read .x2))) writes meaning fun a h => ?_
  simp only [h.regs .x1 (by simp [reads]), h.regs .x2 (by simp [reads])]

/-- A jump whose predicate sees the same, and whose target is among the registers read if it is taken. -/
theorem makesOneChange_of_jump {i : Instr} {s : State} (p : Byte → Bool) (row : i.writes = [])
    (meaning : ∀ a, exec i a = .next (condJump p a)) (same : ∀ a, Agree i s a → p a.x.x3 = p s.x.x3)
    (target : p s.x.x3 = true → .x0 ∈ i.reads) : MakesOneChange i s := by
  refine ⟨⟨none, if p s.x.x3 then s.x.x0 else s.pc + 1, s.inbuf, s.acc, [], .cont⟩, .inl ⟨rfl, fun _ => row⟩,
    fun a h => ?_⟩
  rw [meaning, Change.apply_of_silent rfl]
  simp only [← h.inbuf, ← h.acc, ← h.pc]
  rcases condJump_cases p a with ⟨taken, e⟩ | ⟨untaken, e⟩
  · have here : p s.x.x3 = true := same a h ▸ taken
    have there : a.x.x0 = s.x.x0 := h.regs .x0 (target here)
    rw [e, if_pos here, ← there]
    rfl
  · rw [e, if_neg (by rw [← same a h, untaken]; exact nofun)]
    rfl

/-- The six jumps that look at `x[3]`. -/
theorem makesOneChange_of_test {i : Instr} {s : State} (p : Byte → Bool) (writes : i.writes = [])
    (reads : i.reads = [.x0, .x3]) (meaning : ∀ a, exec i a = .next (condJump p a)) : MakesOneChange i s :=
  makesOneChange_of_jump p writes meaning (fun _ h => congrArg p (h.regs .x3 (by simp [reads])))
    fun _ => by simp [reads]

/-- The change of a step that only gives its result. -/
def stay (r : StepResult) (s : State) : Change where
  pc := s.pc
  inbuf := s.inbuf
  acc := s.acc
  result := r

theorem stay_apply {i : Instr} {s a : State} (r : StepResult) (h : Agree i s a) :
    (stay r s).apply a = ended r a := by
  rw [Change.apply_of_silent rfl]
  simp only [stay, ← h.pc, ← h.inbuf, ← h.acc]
  rfl

/-- A decode error. -/
theorem makesOneChange_of_raise {i : Instr} {s : State} (k : ErrorKind) (meaning : ∀ a, exec i a = .next (raise k a)) :
    MakesOneChange i s :=
  ⟨stay (.error k) s, .inl ⟨rfl, nofun⟩, fun a h => by rw [meaning, raise_eq, stay_apply _ h]⟩

/-! ### The ports -/

/-- The change of a write to the output port. -/
def portChange (s : State) (v : Byte) : Change where
  pc := s.pc + 1
  inbuf := s.inbuf
  acc := (portEffect s v).acc
  frags := (portEffect s v).frag.toList
  result := if (portEffect s v).report then .error .invalidUtf8Lexeme else .cont

theorem portChange_apply {s a : State} {v : Byte} (pc : a.pc = s.pc) (inbuf : a.inbuf = s.inbuf)
    (port : portEffect a v = portEffect s v) : (portChange s v).apply a = moveTo .outPort v a := by
  rw [moveTo_outPort]
  simp only [portChange, ← pc, ← inbuf, ← port]
  rfl

/-- A Move that finds a byte at the input port. -/
theorem move_inPort_of_cons {s : State} {b : Byte} {rest : List Byte} (dst : Dest) (h : s.inbuf = b :: rest) :
    move .inPort dst s = moveTo dst b { s with inbuf := rest } := by
  simp [move, readSource, inPop, h]

/-- How a Move ends that finds the input port empty. -/
def exhaustedResult (m : InputMode) : StepResult :=
  match m with
  | .interactive => .suspendedForInput
  | .buffered => .error .notEnoughInput

/-- A Move that finds the input port empty. -/
theorem move_inPort_of_nil {s : State} (dst : Dest) (h : s.inbuf = []) :
    move .inPort dst s = ended (exhaustedResult s.inputMode) s := by
  rcases move_inPort_cases dst s with ⟨b, rest, cons, _⟩ | ⟨_, m, e⟩ | ⟨_, m, e⟩
  · exact absurd (h.symm.trans cons) nofun
  · rw [e, m]; rfl
  · rw [e, m]; rfl

/-- A Move from the empty input port. -/
theorem makesOneChange_of_exhausted {i : Instr} {s : State} (dst : Dest)
    (meaning : ∀ a, exec i a = .next (move .inPort dst a)) (empty : s.inbuf = []) : MakesOneChange i s := by
  refine ⟨stay (exhaustedResult s.inputMode) s, .inl ⟨rfl, ?_⟩, fun a h => ?_⟩
  · cases m : s.inputMode <;> exact nofun
  · rw [meaning, move_inPort_of_nil dst (h.inbuf.trans empty), stay_apply _ h, h.inputMode]

theorem movInReg_makesOneChange (d : Reg) (s : State) : MakesOneChange (.movInReg d) s := by
  cases hb : s.inbuf with
  | nil => exact makesOneChange_of_exhausted (.reg d) (fun _ => rfl) hb
  | cons b rest =>
    refine ⟨⟨some (d, b), s.pc + 1, rest, s.acc, [], .cont⟩, .inr ⟨d, b, rfl, rfl, rfl⟩, fun a h => ?_⟩
    have taken : exec (.movInReg d) a = .next (continueNext (writeReg { a with inbuf := rest } d b)) :=
      congrArg _ (move_inPort_of_cons (.reg d) (h.inbuf.trans hb))
    rw [taken, continueNext_eq, Change.apply_of_silent rfl]
    simp only [← h.pc, ← h.acc]
    rfl

theorem movInOut_makesOneChange (s : State) : MakesOneChange .movInOut s := by
  cases hb : s.inbuf with
  | nil => exact makesOneChange_of_exhausted .outPort (fun _ => rfl) hb
  | cons b rest =>
    refine ⟨portChange { s with inbuf := rest } b, .inl ⟨rfl, fun _ => rfl⟩, fun a h => ?_⟩
    have taken : exec .movInOut a = .next (moveTo .outPort b { a with inbuf := rest }) :=
      congrArg _ (move_inPort_of_cons .outPort (h.inbuf.trans hb))
    have written := portChange_apply (s := { s with inbuf := rest }) (a := { a with inbuf := rest }) h.pc rfl
      (h.port rfl b)
    exact taken.trans (congrArg _ written.symm)

theorem movRegOut_makesOneChange (r : Reg) (s : State) : MakesOneChange (.movRegOut r) s := by
  refine ⟨portChange s (s.x.read r), .inl ⟨rfl, fun _ => rfl⟩, fun a h => ?_⟩
  rw [portChange_apply h.pc h.inbuf (h.port rfl _), ← h.regs r (List.mem_singleton_self r)]
  rfl

/-! ### Every instruction -/

/-- What an instruction does is settled by what it reads. -/
theorem exec_makesOneChange (i : Instr) (s : State) : MakesOneChange i s := by
  cases i with
  | lit n => exact makesOneChange_of_write .x0 (fun _ => n.setWidth 8) rfl (fun _ => rfl) fun _ _ => rfl
  | jnv => exact makesOneChange_of_jump predNever rfl (fun _ => rfl) (fun _ _ => rfl) nofun
  | jez => exact makesOneChange_of_test predEqualZero rfl rfl fun _ => rfl
  | jgz => exact makesOneChange_of_test predGreaterThanZero rfl rfl fun _ => rfl
  | jgez => exact makesOneChange_of_test predGreaterOrEqualZero rfl rfl fun _ => rfl
  | jmp =>
    exact makesOneChange_of_jump predAlways rfl (fun _ => rfl) (fun _ _ => rfl) fun _ => List.mem_singleton_self _
  | jnz => exact makesOneChange_of_test predNotEqualZero rfl rfl fun _ => rfl
  | jlez => exact makesOneChange_of_test predLessOrEqualZero rfl rfl fun _ => rfl
  | jlz => exact makesOneChange_of_test predLessThanZero rfl rfl fun _ => rfl
  | movRegReg r d =>
    exact makesOneChange_of_write d (fun x => x.read r) rfl (fun _ => rfl)
      fun _ h => h.regs r (List.mem_singleton_self r)
  | movInReg d => exact movInReg_makesOneChange d s
  | movRegOut r => exact movRegOut_makesOneChange r s
  | movInOut => exact movInOut_makesOneChange s
  | add => exact makesOneChange_of_arith wideAdd rfl rfl fun _ => rfl
  | and => exact makesOneChange_of_arith wideAnd rfl rfl fun _ => rfl
  | or => exact makesOneChange_of_arith wideOr rfl rfl fun _ => rfl
  | xor => exact makesOneChange_of_arith wideXor rfl rfl fun _ => rfl
  | sub => exact makesOneChange_of_arith wideSub rfl rfl fun _ => rfl
  | nand => exact makesOneChange_of_arith wideNand rfl rfl fun _ => rfl
  | nor => exact makesOneChange_of_arith wideNor rfl rfl fun _ => rfl
  | xnor => exact makesOneChange_of_arith wideXnor rfl rfl fun _ => rfl
  | illegalConditional => exact makesOneChange_of_raise _ fun _ => rfl
  | illegalMoveFrom => exact makesOneChange_of_raise _ fun _ => rfl
  | illegalMoveTo => exact makesOneChange_of_raise _ fun _ => rfl
  | illegalArithmetic => exact makesOneChange_of_raise _ fun _ => rfl

/-! ### What has no influence -/

/-- Writing a register that the instruction does not read leaves what it reads. -/
theorem agree_writeReg {i : Instr} {r : Reg} (s : State) (v : Byte) (unread : r ∉ i.reads) :
    Agree i s { s with x := s.x.write r v } :=
  { Agree.refl i s with
    regs := fun q read => regFile_read_write_ne s.x r q v fun same => unread (same ▸ read) }

/-- Settles O44: the one change of the instruction, laid on the registers as they are and on those with another value
in the register not read. -/
theorem registersReadAndWritten : Obligations.RegistersReadAndWritten := by
  intro i s
  obtain ⟨c, fits, runs⟩ := exec_makesOneChange i s
  refine ⟨c.apply s, runs s (.refl i s), fun r unwritten => ?_, fun r v unread => ?_⟩
  · rcases fits.read_regs r with ⟨⟨mem, _⟩, _⟩ | ⟨_, kept⟩
    · exact absurd mem unwritten
    · exact kept s.x
  · refine ⟨_, runs _ (agree_writeReg s v unread), rfl, rfl, rfl, rfl, rfl, rfl, fun q other => ?_, ?_⟩
    · rcases fits.read_regs q with ⟨_, w, overwritten⟩ | ⟨_, kept⟩
      · exact (overwritten _).trans (overwritten s.x).symm
      · exact (kept _).trans ((regFile_read_write_ne s.x r q v other).trans (kept s.x).symm)
    · rcases fits.read_regs r with ⟨written, w, overwritten⟩ | ⟨unwritten, kept⟩
      · exact (if_pos written).symm ▸ (overwritten _).trans (overwritten s.x).symm
      · exact (if_neg unwritten).symm ▸ (kept _).trans (regFile_read_write_self s.x r v)

/-- Settles O49: nothing that an instruction reads is among the earlier result, the snapshot and the output, and the
end of a step overwrites the first two. -/
theorem earlierResultsAreNotRead : Obligations.EarlierResultsAreNotRead := by
  intro i s r sn o
  obtain ⟨c, _, runs⟩ := exec_makesOneChange i s
  exact ⟨c.apply s, c.frags, runs s (.refl i s), rfl,
    runs { s with result := r, snapshot := sn, out := o } { Agree.refl i s with }⟩

/-- A write to the output port asks the predicate one question. -/
theorem outWrite_congr {valid valid' : List Byte → Bool} {acc : List Byte} {b : Byte}
    (h : valid (acc ++ [b]) = valid' (acc ++ [b])) : outWrite valid acc b = outWrite valid' acc b := by
  simp only [outWrite, h]

/-- Settles O51: a predicate with the same answers at the output port leaves what the port does. -/
theorem utf8PredicateActsAtTheOutputAlone : Obligations.Utf8PredicateActsAtTheOutputAlone := by
  intro i s table answers
  obtain ⟨c, _, runs⟩ := exec_makesOneChange i s
  exact ⟨c.apply s, runs s (.refl i s),
    runs { s with utf8Table := table }
      { Agree.refl i s with port := fun output v => outWrite_congr (answers output v) }⟩

end Sys2Proof.Proofs.Effects
end

section
/-!
The program store and the launch parameters (spec/10_state.md R24; spec/20_memory.md R33): one value, which every
transition but an accepted load passes on.
-/

namespace Sys2Proof.Proofs.Launch

open Sys2Proof Sys2Proof.Machine

/-- The program store, PLEN, the supplied input, the input mode, STOP_ON_UTF8_ERROR, Utf8Valid and `loaded`. -/
def launch (s : State) : Memory × Nat × List Byte × InputMode × Bool × Utf8Table × Bool :=
  (s.prog, s.plen, s.input0, s.inputMode, s.stopOnUtf8, s.utf8Table, s.loaded)

theorem exec_launch {i : Instr} {s t : State} (h : exec i s = .next t) : launch t = launch s := by
  obtain ⟨c, _, runs⟩ := Effects.exec_makesOneChange i s
  cases (runs s (.refl i s)).symm.trans h
  rfl

theorem engineStep_launch {s t : State} (h : engineStep s = .next t) : launch t = launch s := by
  rcases engineStep_cases s with ⟨_, e⟩ | ⟨_, b, _, e⟩ | ⟨_, _, e⟩ <;> rw [e] at h
  · cases h; rfl
  · exact exec_launch h
  · cases h

theorem coreTurn_launch {s t : State} (h : coreTurn s = .next t) : launch t = launch s := by
  by_cases run : s.loaded = true ∧ s.mode ≠ .idle
  · exact engineStep_launch ((coreTurn_of_run run.1 run.2).symm.trans h)
  · cases (if_neg run).symm.trans h
    rfl

theorem appendInput_launch (b : Byte) (s : State) : launch (appendInput b s) = launch s := by
  rcases appendInput_cases b s with ⟨_, e⟩ | ⟨_, e⟩ <;> rw [e]
  rfl

/-- The effect of every command but a load. -/
theorem commandEffect_launch {c : Command} {s t : State} (other : ∀ prog input0 m, c ≠ .load prog input0 m)
    (h : commandEffect c s = .next t) : launch t = launch s := by
  cases c with
  | load prog input0 m => exact absurd rfl (other prog input0 m)
  | reset => cases h; rfl
  | stepOnce => exact engineStep_launch (s := { s with mode := .singleStep }) h
  | runToCompletion => exact engineStep_launch (s := { s with mode := .runToCompletion }) h
  | appendInput b => cases h; exact appendInput_launch b s
  | abort => cases h; rfl

/-- The host's turn with anything but a load in Idle: a load elsewhere is ignored (R161). -/
theorem hostTurn_launch {c : Command} {s t : State}
    (noLoad : ∀ prog input0 m, c = .load prog input0 m → s.mode ≠ .idle) (h : hostTurn c s = .next t) :
    launch t = launch s := by
  cases ok : accepted c s with
  | false =>
    cases (hostTurn_of_ignored ok).symm.trans h
    rfl
  | true =>
    refine commandEffect_launch (fun prog input0 m load => ?_) ((hostTurn_of_accepted ok).symm.trans h)
    subst load
    exact noLoad prog input0 m rfl (of_decide_eq_true ok)

/-- By whose turn it is. -/
theorem step_launch {s t : State} (h : step s = .next t)
    (noLoad : ¬ (s.mode = .idle ∧ ∃ prog input0 m rest, s.sched = some (.load prog input0 m) :: rest)) :
    launch t = launch s := by
  rcases step_cases s with ⟨_, e⟩ | ⟨_, _, e⟩ | ⟨_, rest, _, e⟩ | ⟨_, c, rest, sched, e⟩ <;> rw [e] at h
  · exact coreTurn_launch h
  · exact coreTurn_launch h
  · exact coreTurn_launch (s := { s with sched := rest }) h
  · refine hostTurn_launch (s := { s with sched := rest }) (fun prog input0 m load idle => ?_) h
    exact noLoad ⟨idle, prog, input0, m, rest, load ▸ sched⟩

/-- Settles O43: the launch is kept as one value, so each of its parts is. -/
theorem onlyLoadChangesTheProgram : Obligations.OnlyLoadChangesTheProgram := by
  intro s t h noLoad
  have kept := step_launch h noLoad
  simp only [launch, Prod.mk.injEq] at kept
  obtain ⟨prog, rest⟩ := kept
  exact ⟨fun a => by rw [prog], prog, rest⟩

end Sys2Proof.Proofs.Launch
end

section
/-!
UTF-8 (spec/20_memory.md R46, R47, R49): R46's lengths, R47's formulas, R49's table and the encoding by division, each
put once into numbers. That a sequence is well formed and has a code point, and that it is the encoding of that code
point, are then the same inequalities between the same numbers: `encodes_iff`.
-/

namespace Sys2Proof.Proofs.Utf8Scalars

open Sys2Proof Sys2Proof.Machine

/-! ### The length a first byte selects -/

/-- A test of the bits from `k` up to bit 7 is a division. -/
theorem extractLsb'_eq_iff (f : Byte) {k n : Nat} (v : BitVec n) (top : k + n = 8) :
    f.extractLsb' k n = v ↔ f.toNat / 2 ^ k = v.toNat := by
  have short : f.toNat / 2 ^ k < 2 ^ n := by
    rw [Nat.div_lt_iff_lt_mul (Nat.two_pow_pos k), ← pow_add, Nat.add_comm n k, top]
    exact f.isLt
  rw [← BitVec.toNat_inj, BitVec.extractLsb'_toNat, Nat.shiftRight_eq_div_pow, Nat.mod_eq_of_lt short]

/-- Settles O34: R46's bit patterns are ranges of the byte's value. -/
theorem expectedLengthTable : Obligations.ExpectedLengthTable := by
  intro f
  simp only [expLen, extractLsb'_eq_iff f _ (rfl : 7 + 1 = 8), extractLsb'_eq_iff f _ (rfl : 5 + 3 = 8),
    extractLsb'_eq_iff f _ (rfl : 4 + 4 = 8), extractLsb'_eq_iff f _ (rfl : 3 + 5 = 8), BitVec.toNat_ofNat]
  split_ifs <;> grind

/-! ### The code point in numbers -/

/-- The low bits of a byte, as a part of a code point. -/
theorem codeBits_toNat (b : Byte) {mask : Byte} {k : Nat} (low : mask.toNat = 2 ^ k - 1) :
    (codeBits b mask).toNat = b.toNat % 2 ^ k := by
  have small : b.toNat % 2 ^ k < 2 ^ 21 := by
    have := Nat.mod_le b.toNat (2 ^ k)
    omega
  rw [codeBits, BitVec.toNat_setWidth, BitVec.toNat_and, low, Nat.and_two_pow_sub_one_eq_mod, Nat.mod_eq_of_lt small]

/-- Bits put above bits that are short enough add up. -/
theorem shiftLeft_or_toNat {x y : CodePoint} {k : Nat} (low : y.toNat < 2 ^ k) (fits : x.toNat * 2 ^ k < 2 ^ 21) :
    (x <<< k ||| y).toNat = x.toNat * 2 ^ k + y.toNat := by
  rw [BitVec.toNat_or, BitVec.toNat_shiftLeft, Nat.shiftLeft_eq, Nat.mod_eq_of_lt fits, ← Nat.shiftLeft_eq,
    Nat.shiftLeft_add_eq_or_of_lt low]

theorem codePoint_one (a : Byte) : (codePoint [a]).toNat = a.toNat := by
  rw [codePoint, codeBits_toNat a (k := 8) rfl]
  exact Nat.mod_eq_of_lt a.isLt

theorem codePoint_two (a b : Byte) : (codePoint [a, b]).toNat = a.toNat % 2 ^ 5 * 2 ^ 6 + b.toNat % 2 ^ 6 := by
  have ha := codeBits_toNat a (mask := 0x1F) (k := 5) rfl
  have hb := codeBits_toNat b (mask := 0x3F) (k := 6) rfl
  rw [codePoint, shiftLeft_or_toNat (by omega) (by omega), ha, hb]

theorem codePoint_three (a b c : Byte) :
    (codePoint [a, b, c]).toNat = a.toNat % 2 ^ 4 * 2 ^ 12 + (b.toNat % 2 ^ 6 * 2 ^ 6 + c.toNat % 2 ^ 6) := by
  have ha := codeBits_toNat a (mask := 0x0F) (k := 4) rfl
  have hb := codeBits_toNat b (mask := 0x3F) (k := 6) rfl
  have hc := codeBits_toNat c (mask := 0x3F) (k := 6) rfl
  have hbc := shiftLeft_or_toNat (x := codeBits b 0x3F) (y := codeBits c 0x3F) (k := 6) (by omega) (by omega)
  rw [codePoint, BitVec.or_assoc, shiftLeft_or_toNat (by omega) (by omega), hbc, ha, hb, hc]

theorem codePoint_four (a b c d : Byte) :
    (codePoint [a, b, c, d]).toNat =
      a.toNat % 2 ^ 3 * 2 ^ 18 + (b.toNat % 2 ^ 6 * 2 ^ 12 + (c.toNat % 2 ^ 6 * 2 ^ 6 + d.toNat % 2 ^ 6)) := by
  have ha := codeBits_toNat a (mask := 0x07) (k := 3) rfl
  have hb := codeBits_toNat b (mask := 0x3F) (k := 6) rfl
  have hc := codeBits_toNat c (mask := 0x3F) (k := 6) rfl
  have hd := codeBits_toNat d (mask := 0x3F) (k := 6) rfl
  have hcd := shiftLeft_or_toNat (x := codeBits c 0x3F) (y := codeBits d 0x3F) (k := 6) (by omega) (by omega)
  have hbcd := shiftLeft_or_toNat (x := codeBits b 0x3F) (y := codeBits c 0x3F <<< 6 ||| codeBits d 0x3F) (k := 12)
    (by omega) (by omega)
  rw [codePoint, BitVec.or_assoc, BitVec.or_assoc, shiftLeft_or_toNat (by omega) (by omega), hbcd, hcd, ha, hb, hc, hd]

/-! ### R49's table in numbers -/

/-- 80..BF, the range of every byte after the first, narrower in four rows for the second. -/
abbrev isTail (b : Byte) : Prop := 0x80 ≤ b.toNat ∧ b.toNat ≤ 0xBF

theorem utf8Valid_one (a : Byte) : utf8Valid [a] = true ↔ a.toNat ≤ 0x7F := by
  simp [utf8Valid, standardUtf8, Utf8Table.accepts, Utf8Row.admits, between]

theorem utf8Valid_two (a b : Byte) :
    utf8Valid [a, b] = true ↔ (0xC2 ≤ a.toNat ∧ a.toNat ≤ 0xDF) ∧ isTail b := by
  simp [utf8Valid, standardUtf8, Utf8Table.accepts, Utf8Row.admits, between]

theorem utf8Valid_three (a b c : Byte) :
    utf8Valid [a, b, c] = true ↔ (0xE0 ≤ a.toNat ∧ a.toNat ≤ 0xEF) ∧ isTail b ∧ isTail c ∧
      (a.toNat = 0xE0 → 0xA0 ≤ b.toNat) ∧ (a.toNat = 0xED → b.toNat ≤ 0x9F) := by
  simp only [utf8Valid, standardUtf8, Utf8Table.accepts, Utf8Row.admits, between, List.any_cons, List.any_nil,
    Bool.or_false, Bool.false_or, Bool.and_false, Bool.and_true, Bool.or_eq_true, Bool.and_eq_true, decide_eq_true_eq,
    BitVec.ofNat_eq_ofNat, BitVec.toNat_ofNat]
  omega

theorem utf8Valid_four (a b c d : Byte) :
    utf8Valid [a, b, c, d] = true ↔ (0xF0 ≤ a.toNat ∧ a.toNat ≤ 0xF4) ∧ isTail b ∧ isTail c ∧ isTail d ∧
      (a.toNat = 0xF0 → 0x90 ≤ b.toNat) ∧ (a.toNat = 0xF4 → b.toNat ≤ 0x8F) := by
  simp only [utf8Valid, standardUtf8, Utf8Table.accepts, Utf8Row.admits, between, List.any_cons, List.any_nil,
    Bool.or_false, Bool.false_or, Bool.and_false, Bool.and_true, Bool.or_eq_true, Bool.and_eq_true, decide_eq_true_eq,
    BitVec.ofNat_eq_ofNat, BitVec.toNat_ofNat]
  omega

/-! ### The encoding in numbers -/

theorem utf8Encode_length (c : CodePoint) : 1 ≤ (utf8Encode c).length ∧ (utf8Encode c).length ≤ 4 := by
  simp only [utf8Encode]
  split_ifs <;> simp

theorem utf8Encode_eq_one (c : CodePoint) (a : Byte) :
    utf8Encode c = [a] ↔ c.toNat < 0x80 ∧ a.toNat = c.toNat := by
  simp only [utf8Encode]
  split_ifs <;> simp [← BitVec.toNat_inj] <;> omega

theorem utf8Encode_eq_two (c : CodePoint) (a b : Byte) :
    utf8Encode c = [a, b] ↔ (0x80 ≤ c.toNat ∧ c.toNat < 0x800) ∧
      a.toNat = 0xC0 + c.toNat / 64 ∧ b.toNat = 0x80 + c.toNat % 64 := by
  simp only [utf8Encode]
  split_ifs <;> simp [← BitVec.toNat_inj] <;> omega

theorem utf8Encode_eq_three (c : CodePoint) (a b d : Byte) :
    utf8Encode c = [a, b, d] ↔ (0x800 ≤ c.toNat ∧ c.toNat < 0x10000) ∧
      a.toNat = 0xE0 + c.toNat / 64 ^ 2 ∧ b.toNat = 0x80 + c.toNat / 64 % 64 ∧ d.toNat = 0x80 + c.toNat % 64 := by
  simp only [utf8Encode]
  split_ifs <;> simp [← BitVec.toNat_inj] <;> omega

theorem utf8Encode_eq_four (c : CodePoint) (a b d e : Byte) :
    utf8Encode c = [a, b, d, e] ↔ 0x10000 ≤ c.toNat ∧ a.toNat = 0xF0 + c.toNat / 64 ^ 3 ∧
      b.toNat = 0x80 + c.toNat / 64 ^ 2 % 64 ∧ d.toNat = 0x80 + c.toNat / 64 % 64 ∧ e.toNat = 0x80 + c.toNat % 64 := by
  have := c.isLt
  simp only [utf8Encode]
  split_ifs <;> simp [← BitVec.toNat_inj] <;> omega

/-! ### The two together -/

/-- A sequence is the encoding of a scalar value exactly if it is well formed and the value is its code point. -/
theorem encodes_iff (c : CodePoint) (a : List Byte) :
    (isScalar c ∧ a = utf8Encode c) ↔ (utf8Valid a = true ∧ codePoint a = c) := by
  rw [eq_comm (a := a), ← BitVec.toNat_inj]
  match a with
  | [] => exact ⟨fun h => absurd (utf8Encode_length c) (by simp [h.2]), fun h => absurd h.1 (by decide)⟩
  | [a] => rw [utf8Encode_eq_one, utf8Valid_one, codePoint_one]; omega
  | [a, b] => rw [utf8Encode_eq_two, utf8Valid_two, codePoint_two]; omega
  | [a, b, d] => rw [utf8Encode_eq_three, utf8Valid_three, codePoint_three]; omega
  | [a, b, d, e] => rw [utf8Encode_eq_four, utf8Valid_four, codePoint_four]; omega
  | _ :: _ :: _ :: _ :: _ :: _ =>
    exact ⟨fun h => absurd (utf8Encode_length c) (by simp [h.2]), fun h => absurd (utf8Valid_length h.1) (by simp)⟩

/-- Settles O35: the scalar value of a valid sequence is its code point. -/
theorem validSequencesEncodeScalars : Obligations.ValidSequencesEncodeScalars := by
  refine ⟨fun a => ⟨fun h => ?_, fun ⟨c, h⟩ => ?_⟩, fun c h => ?_⟩
  · exact ⟨codePoint a, (encodes_iff _ a).2 ⟨h, rfl⟩⟩
  · exact ((encodes_iff c a).1 h).1
  · exact ((encodes_iff c _).1 ⟨h, rfl⟩).2

end Sys2Proof.Proofs.Utf8Scalars
end

section
/-!
The output port as a decoder (spec/20_memory.md R45, R49, R51). A sequence that is well formed is flushed at its last
byte and not before, because its first byte selects its whole length.
-/

namespace Sys2Proof.Proofs.OutputPort

open Sys2Proof Sys2Proof.Machine Utf8Scalars

/-! ### The length selected -/

/-- The bytes after the first have no part in the length. -/
theorem accExpLen_append {a : List Byte} (started : a ≠ []) (bs : List Byte) : accExpLen (a ++ bs) = accExpLen a := by
  cases a with
  | nil => exact absurd rfl started
  | cons f a => rfl

/-- The first byte of a well-formed sequence selects its length. -/
theorem accExpLen_of_utf8Valid {a : List Byte} (h : utf8Valid a = true) : accExpLen a = some a.length := by
  match a with
  | [] => cases h
  | [a] =>
    rw [utf8Valid_one] at h
    grind [accExpLen, expectedLengthTable a]
  | [a, b] =>
    rw [utf8Valid_two] at h
    grind [accExpLen, expectedLengthTable a]
  | [a, b, d] =>
    rw [utf8Valid_three] at h
    grind [accExpLen, expectedLengthTable a]
  | [a, b, d, e] =>
    rw [utf8Valid_four] at h
    grind [accExpLen, expectedLengthTable a]
  | _ :: _ :: _ :: _ :: _ :: _ => exact absurd (utf8Valid_length h) (by simp)

/-! ### One write -/

/-- The write that completes a well-formed sequence. -/
theorem outWrite_of_utf8Valid {valid : List Byte → Bool} {acc : List Byte} {b : Byte}
    (wellFormed : utf8Valid (acc ++ [b]) = true) (accepted : valid (acc ++ [b]) = true) :
    outWrite valid acc b = ⟨[], some (codePoint (acc ++ [b])), false⟩ := by
  have length := accExpLen_of_utf8Valid wellFormed
  rw [List.length_append, List.length_singleton] at length
  rcases outWrite_cases valid acc b with ⟨_, _, e⟩ | ⟨no, _, _⟩ | ⟨no, _, _⟩
  · exact e
  · exact absurd ⟨length, accepted⟩ no
  · exact absurd ⟨length, accepted⟩ no

/-- A write that completes no well-formed sequence, where nothing else is accepted. -/
theorem outWrite_of_not_valid {valid : List Byte → Bool} {acc : List Byte} {b : Byte}
    (refused : valid (acc ++ [b]) ≠ true) :
    outWrite valid acc b = if acc.length = 3 then ⟨[], none, true⟩ else ⟨acc ++ [b], none, false⟩ := by
  rcases outWrite_cases valid acc b with ⟨_, accepted, _⟩ | ⟨_, four, e⟩ | ⟨_, fewer, e⟩
  · exact absurd accepted refused
  · rw [e, if_pos four]
  · rw [e, if_neg fewer]

/-- A write that leaves a sequence of at most four bytes still to be completed waits, whatever is accepted. -/
theorem outWrite_of_wellFormed_begun {acc rest : List Byte} {b : Byte} (valid : List Byte → Bool)
    (wellFormed : utf8Valid (acc ++ b :: rest) = true) (more : rest ≠ []) :
    outWrite valid acc b = ⟨acc ++ [b], none, false⟩ := by
  have whole := accExpLen_of_utf8Valid wellFormed
  have short := (utf8Valid_length wellFormed).2
  have remaining := List.length_pos_iff.2 more
  rw [List.append_cons, accExpLen_append (by simp)] at whole
  rw [List.append_cons, List.length_append, List.length_append, List.length_singleton] at short
  rcases outWrite_cases valid acc b with ⟨complete, _, _⟩ | ⟨_, four, _⟩ | ⟨_, _, e⟩
  · exact absurd (by simpa using complete.symm.trans whole) more
  · omega
  · exact e

/-- Settles O36: the accumulator with the byte is the encoding of a character, or R49's table refuses it. -/
theorem outputPortByCharacters : Obligations.OutputPortByCharacters := by
  refine fun acc b => ⟨fun c scalar spells => ?_, fun unspelled => outWrite_of_not_valid fun wellFormed => ?_⟩
  · obtain ⟨wellFormed, point⟩ := (encodes_iff c _).1 ⟨scalar, spells⟩
    rw [outWrite_of_utf8Valid wellFormed wellFormed, point]
  · obtain ⟨scalar, spells⟩ := (encodes_iff (codePoint (acc ++ [b])) _).2 ⟨wellFormed, rfl⟩
    exact unspelled _ scalar spells

/-! ### Many writes -/

theorem writeAll_cons_of_wait {valid : List Byte → Bool} {acc acc' : List Byte} {b : Byte}
    (h : outWrite valid acc b = ⟨acc', none, false⟩) (bs : List Byte) :
    writeAll valid acc (b :: bs) = writeAll valid acc' bs := by
  simp [writeAll, h]

theorem writeAll_cons_of_flush {valid : List Byte → Bool} {acc : List Byte} {b : Byte} {c : CodePoint}
    (h : outWrite valid acc b = ⟨[], some c, false⟩) (bs : List Byte) :
    writeAll valid acc (b :: bs) = { writeAll valid [] bs with frags := c :: (writeAll valid [] bs).frags } := by
  simp [writeAll, h]

/-- The rest of a well-formed sequence whose beginning is pending delivers its code point and leaves the port empty. -/
theorem writeAll_of_wellFormed {valid : List Byte → Bool} {acc a : List Byte} (after : List Byte)
    (wellFormed : utf8Valid (acc ++ a) = true) (accepted : valid (acc ++ a) = true) (more : a ≠ []) :
    writeAll valid acc (a ++ after) =
      { writeAll valid [] after with frags := codePoint (acc ++ a) :: (writeAll valid [] after).frags } := by
  induction a generalizing acc with
  | nil => exact absurd rfl more
  | cons b a ih =>
    rw [List.cons_append]
    by_cases last : a = []
    · subst last
      exact writeAll_cons_of_flush (outWrite_of_utf8Valid wellFormed accepted) after
    · rw [writeAll_cons_of_wait (outWrite_of_wellFormed_begun valid wellFormed last)]
      rw [List.append_cons acc b a] at wellFormed accepted ⊢
      exact ih wellFormed accepted last

/-- Settles O37: by induction on the characters, each of them a well-formed sequence written to an empty port. -/
theorem wellFormedOutputIsDelivered : Obligations.WellFormedOutputIsDelivered := by
  intro valid accepts cs scalars
  induction cs with
  | nil => rfl
  | cons c cs ih =>
    obtain ⟨scalar, others⟩ := List.forall_mem_cons.1 scalars
    obtain ⟨wellFormed, point⟩ := (encodes_iff c _).1 ⟨scalar, rfl⟩
    have bytes : utf8Encode c ≠ [] := List.length_pos_iff.1 (utf8Encode_length c).1
    have first := writeAll_of_wellFormed (acc := []) (a := utf8Encode c) (cs.flatMap utf8Encode) wellFormed
      (accepts _ wellFormed) bytes
    rw [List.flatMap_cons, first, ih others, List.nil_append, point]

end Sys2Proof.Proofs.OutputPort
end

section
/-!
What a transition leaves in the list of fragments (spec/20_memory.md R45, R47): fragments that stood there, and code
points of sequences that the machine's own `Utf8Valid` accepts.
-/

namespace Sys2Proof.Proofs.Fragments

open Sys2Proof Sys2Proof.Machine

/-- Every fragment of `t` was one of `s` or is the code point of a sequence that `s` accepts. -/
def Collects (s t : State) : Prop :=
  ∀ c ∈ t.out, c ∈ s.out ∨ ∃ a, s.utf8Table.accepts a = true ∧ codePoint a = c

theorem collects_of_out_eq {s t : State} (h : t.out = s.out) : Collects s t := fun _ mem => .inl (h ▸ mem)

theorem collects_of_out_nil {s t : State} (h : t.out = []) : Collects s t :=
  fun _ mem => absurd (h ▸ mem) List.not_mem_nil

/-- The output port delivers nothing, or the code point of a sequence that it has found valid. -/
theorem outWrite_frag_cases (valid : List Byte → Bool) (acc : List Byte) (b : Byte) :
    (outWrite valid acc b).frag = none ∨
      ∃ a, valid a = true ∧ (outWrite valid acc b).frag = some (codePoint a) := by
  rcases outWrite_cases valid acc b with ⟨_, accepted, e⟩ | ⟨_, _, e⟩ | ⟨_, _, e⟩ <;> rw [e]
  · exact .inr ⟨_, accepted, rfl⟩
  · exact .inl rfl
  · exact .inl rfl

theorem moveTo_outPort_collects (v : Byte) (s : State) : Collects s (moveTo .outPort v s) := by
  have out : (moveTo .outPort v s).out = s.out ++ (portEffect s v).frag.toList := by rw [moveTo_outPort]; rfl
  rcases outWrite_frag_cases s.utf8Table.accepts s.acc v with silent | ⟨a, accepted, delivers⟩
  · exact collects_of_out_eq (by rw [out, portEffect, silent]; exact List.append_nil _)
  · intro c mem
    rw [out, portEffect, delivers] at mem
    rcases List.mem_append.1 mem with old | new
    · exact .inl old
    · exact .inr ⟨a, accepted, (List.mem_singleton.1 new).symm⟩

/-- An instruction that is no Move to the output port leaves the list. -/
theorem exec_collects {i : Instr} {s t : State} (h : exec i s = .next t) : Collects s t := by
  rcases exec_cases i s with ⟨_, _, _, _, e⟩ | ⟨_, e⟩ | ⟨_, e⟩ | ⟨_, _, _, _, _, e⟩ | ⟨v, rest, _, e⟩ |
    ⟨_, _, _, e⟩ | ⟨_, _, _, e⟩ | ⟨_, _, _, e⟩ <;> cases e.symm.trans h
  case inr.inr.inr.inr.inl => exact moveTo_outPort_collects v { s with inbuf := rest }
  all_goals exact collects_of_out_eq rfl

/-! ### The turns of core and host -/

theorem engineStep_collects {s t : State} (h : engineStep s = .next t) : Collects s t := by
  rcases engineStep_cases s with ⟨_, e⟩ | ⟨_, b, _, e⟩ | ⟨_, _, e⟩ <;> rw [e] at h
  · cases h; exact collects_of_out_eq rfl
  · exact exec_collects h
  · cases h

theorem coreTurn_collects {s t : State} (h : coreTurn s = .next t) : Collects s t := by
  by_cases run : s.loaded = true ∧ s.mode ≠ .idle
  · exact engineStep_collects ((coreTurn_of_run run.1 run.2).symm.trans h)
  · cases (if_neg run).symm.trans h
    exact collects_of_out_eq rfl

/-- A failed load leaves the list, a load that succeeds empties it. -/
theorem loadMachine_collects (prog input0 : List Byte) (m : InputMode) (s : State) :
    Collects s (loadMachine prog input0 m s) := by
  rcases loadMachine_cases prog input0 m s with ⟨_, e⟩ | ⟨_, e⟩ | ⟨_, _, e⟩ <;> rw [e]
  · exact collects_of_out_eq rfl
  · exact collects_of_out_eq rfl
  · exact collects_of_out_nil rfl

theorem commandEffect_collects {c : Command} {s t : State} (h : commandEffect c s = .next t) : Collects s t := by
  cases c with
  | load prog input0 m => cases h; exact loadMachine_collects prog input0 m s
  | reset => cases h; exact collects_of_out_nil rfl
  | stepOnce => exact engineStep_collects (s := { s with mode := .singleStep }) h
  | runToCompletion => exact engineStep_collects (s := { s with mode := .runToCompletion }) h
  | appendInput b =>
    cases h
    rcases appendInput_cases b s with ⟨_, e⟩ | ⟨_, e⟩ <;> exact collects_of_out_eq (by rw [e])
  | abort => cases h; exact collects_of_out_eq rfl

theorem hostTurn_collects {c : Command} {s t : State} (h : hostTurn c s = .next t) : Collects s t := by
  cases ok : accepted c s with
  | true => exact commandEffect_collects ((hostTurn_of_accepted ok).symm.trans h)
  | false =>
    cases (hostTurn_of_ignored ok).symm.trans h
    exact collects_of_out_eq rfl

/-- By whose turn it is. -/
theorem step_collects {s t : State} (h : step s = .next t) : Collects s t := by
  rcases step_cases s with ⟨_, e⟩ | ⟨_, _, e⟩ | ⟨_, rest, _, e⟩ | ⟨_, c, rest, _, e⟩ <;> rw [e] at h
  · exact coreTurn_collects h
  · exact coreTurn_collects h
  · exact coreTurn_collects (s := { s with sched := rest }) h
  · exact hostTurn_collects (s := { s with sched := rest }) h

/-- Settles O38: a new fragment is the code point of a well-formed sequence, which is a scalar value. -/
theorem fragmentsAreScalars : Obligations.FragmentsAreScalars := by
  intro s t strict scalars h c mem
  rcases step_collects h c mem with old | ⟨a, accepted, point⟩
  · exact scalars c old
  · exact ((Utf8Scalars.encodes_iff c a).2 ⟨strict a accepted, point⟩).1

end Sys2Proof.Proofs.Fragments
end

section
/-!
The load and append_input commands at a boundary between steps (spec/45_run_driver.md R151, R160, R161;
spec/20_memory.md R32, R40).
-/

namespace Sys2Proof.Proofs.HostCommands

open Sys2Proof Sys2Proof.Machine

theorem not_singleStep_of_idle {s : State} (idle : s.mode = .idle) : s.mode ≠ .singleStep := idle ▸ nofun

/-- A command that is not accepted takes its place in the schedule and does nothing else. -/
theorem step_of_ignored {s : State} {c : Command} {rest : List (Option Command)} (outside : s.mode ≠ .singleStep)
    (sched : s.sched = some c :: rest) (ignored : accepted c s = false) : step s = .next { s with sched := rest } := by
  rw [step_of_command outside sched]
  exact hostTurn_of_ignored ignored

/-- A command that is accepted has its effect on the machine with the rest of the schedule. -/
theorem step_of_accepted {s : State} {c : Command} {rest : List (Option Command)} (outside : s.mode ≠ .singleStep)
    (sched : s.sched = some c :: rest) (ok : accepted c s = true) :
    step s = commandEffect c { s with sched := rest } := by
  rw [step_of_command outside sched]
  exact hostTurn_of_accepted ok

/-! ### Load -/

theorem step_load {s : State} {prog input0 : List Byte} {m : InputMode} {rest : List (Option Command)}
    (idle : s.mode = .idle) (sched : s.sched = some (.load prog input0 m) :: rest) :
    step s = .next (loadMachine prog input0 m { s with sched := rest }) :=
  step_of_accepted (not_singleStep_of_idle idle) sched (decide_eq_true idle)

/-- A program of no bytes or of too many. -/
theorem loadMachine_of_bad_length {prog : List Byte} (input0 : List Byte) (m : InputMode) (s : State)
    (bad : prog.length = 0 ∨ 255 < prog.length) :
    loadMachine prog input0 m s =
      loadFailed (if prog.length = 0 then .programIsEmpty else .programIsTooLong) s := by
  rcases loadMachine_cases prog input0 m s with ⟨empty, e⟩ | ⟨long, e⟩ | ⟨pos, le, _⟩
  · rw [e, if_pos empty]
  · rw [e, if_neg (by omega)]
  · omega

/-- A program of 1 to 255 bytes. -/
theorem loadMachine_of_good_length {prog : List Byte} (input0 : List Byte) (m : InputMode) (s : State)
    (pos : 1 ≤ prog.length) (le : prog.length ≤ 255) :
    loadMachine prog input0 m s =
      resetMachine
        { s with
          prog := Memory.ofBytes prog
          plen := prog.length
          input0 := input0
          inputMode := m
          loaded := true } := by
  rcases loadMachine_cases prog input0 m s with ⟨empty, _⟩ | ⟨long, _⟩ | ⟨_, _, e⟩
  · omega
  · omega
  · exact e

/-- Settles O7: by the length in Idle, and by R161 during a run. -/
theorem loadChecksTheLength : Obligations.LoadChecksTheLength := by
  intro s prog input0 m rest sched
  refine ⟨fun idle bad => ?_, fun idle pos le => ?_, fun run => ?_⟩
  · have failed := step_load idle sched
    rw [loadMachine_of_bad_length input0 m _ bad] at failed
    refine ⟨_, failed, rfl, idle, rfl, rfl, fun c hc rest' => ?_⟩
    exact step_of_ignored (not_singleStep_of_idle idle) rfl (StartState.accepted_step_of_not_loaded hc rfl)
  · have installed := step_load idle sched
    rw [loadMachine_of_good_length input0 m _ pos le] at installed
    exact ⟨_, installed, rfl, rfl, memory_ofBytes_read prog, rfl, rfl, rfl, rfl, rfl, rfl, rfl, rfl, rfl, rfl, rfl, rfl⟩
  · exact step_of_ignored (run ▸ nofun) sched (by simp [accepted, run])

/-! ### Append -/

theorem step_append_interactive {s : State} {b : Byte} {rest : List (Option Command)} (idle : s.mode = .idle)
    (interactive : s.inputMode = .interactive) (sched : s.sched = some (.appendInput b) :: rest) :
    step s = .next { s with inbuf := s.inbuf ++ [b], sched := rest } := by
  rw [step_of_accepted (not_singleStep_of_idle idle) sched (decide_eq_true idle)]
  rcases appendInput_cases b { s with sched := rest } with ⟨_, e⟩ | ⟨buffered, _⟩
  · exact congrArg _ e
  · exact absurd (interactive.symm.trans buffered) nofun

theorem step_append_buffered {s : State} {b : Byte} {rest : List (Option Command)} (idle : s.mode = .idle)
    (buffered : s.inputMode = .buffered) (sched : s.sched = some (.appendInput b) :: rest) :
    step s = .next { s with sched := rest } := by
  rw [step_of_accepted (not_singleStep_of_idle idle) sched (decide_eq_true idle)]
  rcases appendInput_cases b { s with sched := rest } with ⟨interactive, _⟩ | ⟨_, e⟩
  · exact absurd (buffered.symm.trans interactive) nofun
  · exact congrArg _ e

/-- The schedule of one append for each byte. -/
abbrev appends (bytes : List Byte) : List (Option Command) := bytes.map fun b => some (.appendInput b)

theorem steps_appends_interactive {bytes : List Byte} {s : State} {rest : List (Option Command)} (idle : s.mode = .idle)
    (interactive : s.inputMode = .interactive) (sched : s.sched = appends bytes ++ rest) :
    steps bytes.length s = .next { s with inbuf := s.inbuf ++ bytes, sched := rest } := by
  induction bytes generalizing s with
  | nil => rw [List.append_nil, ← show s.sched = rest from sched]; rfl
  | cons b bytes ih =>
    have first := steps_succ (step_append_interactive idle interactive sched) bytes.length
    have others := ih (s := { s with inbuf := s.inbuf ++ [b], sched := appends bytes ++ rest }) idle interactive rfl
    rw [← List.append_cons] at others
    exact first.trans others

theorem steps_appends_buffered {bytes : List Byte} {s : State} {rest : List (Option Command)} (idle : s.mode = .idle)
    (buffered : s.inputMode = .buffered) (sched : s.sched = appends bytes ++ rest) :
    steps bytes.length s = .next { s with sched := rest } := by
  induction bytes generalizing s with
  | nil => rw [← show s.sched = rest from sched]; rfl
  | cons b bytes ih =>
    have first := steps_succ (step_append_buffered idle buffered sched) bytes.length
    exact first.trans (ih (s := { s with sched := appends bytes ++ rest }) idle buffered rfl)

/-- Settles O9: by induction on the bytes, in each input mode. -/
theorem appendedBytesJoinTheEnd : Obligations.AppendedBytesJoinTheEnd := fun _ _ _ idle sched =>
  ⟨fun interactive => steps_appends_interactive idle interactive sched,
    fun buffered => steps_appends_buffered idle buffered sched⟩

end Sys2Proof.Proofs.HostCommands
end

section
/-!
Decode and encode (spec/30_encoding.md R60 to R72, R75). A byte is its fields put side by side, and each class of
instructions is decoded from and encoded to the fields of R62 to R65. Two facts carry the rest: `decode_of_encode`, and
`decode_cases`, which lists what a byte can decode to by the conditions of R67.
-/

namespace Sys2Proof.Proofs.Encoding

open Sys2Proof Sys2Proof.Machine

/-! ### The fields of a byte (R60) -/

theorem classField_append_imm6Field (b : Byte) : classField b ++ imm6Field b = b :=
  (BitVec.extractLsb'_append_extractLsb'_eq_extractLsb' rfl).trans BitVec.extractLsb'_eq_self

theorem classField_append_midField_append_lowField (b : Byte) : classField b ++ midField b ++ lowField b = b := by
  have upper : classField b ++ midField b = b.extractLsb' 3 5 :=
    BitVec.extractLsb'_append_extractLsb'_eq_extractLsb' rfl
  rw [upper]
  exact (BitVec.extractLsb'_append_extractLsb'_eq_extractLsb' rfl).trans BitVec.extractLsb'_eq_self

theorem classField_toNat (b : Byte) : (classField b).toNat = b.toNat / 64 := by
  have := b.isLt
  simp only [classField, BitVec.extractLsb'_toNat, Nat.shiftRight_eq_div_pow]
  omega

theorem midField_toNat (b : Byte) : (midField b).toNat = b.toNat / 8 % 8 := by
  simp only [midField, BitVec.extractLsb'_toNat, Nat.shiftRight_eq_div_pow]

theorem lowField_toNat (b : Byte) : (lowField b).toNat = b.toNat % 8 := by
  simp only [lowField, BitVec.extractLsb'_toNat, Nat.shiftRight_zero]

theorem classField_append (c : BitVec 2) (m l : BitVec 3) : classField (c ++ m ++ l) = c :=
  (BitVec.extractLsb'_append_eq_of_le (by decide)).trans BitVec.extractLsb'_append_eq_left

theorem midField_append (c : BitVec 2) (m l : BitVec 3) : midField (c ++ m ++ l) = m :=
  (BitVec.extractLsb'_append_eq_of_le (by decide)).trans BitVec.extractLsb'_append_eq_right

theorem lowField_append (c : BitVec 2) (m l : BitVec 3) : lowField (c ++ m ++ l) = l :=
  BitVec.extractLsb'_append_eq_right

/-! ### The selectors of a Move (R66) -/

/-- The selector that names a register, the port or nothing. -/
def selectorOf : Selected → BitVec 3
  | .reg r => r.number.setWidth 3
  | .port => portNumber.setWidth 3
  | .invalid => 7#3

@[simp] theorem selected_selectorOf (x : Selected) : selected (selectorOf x) = x := by
  cases x with
  | reg r => cases r <;> rfl
  | port => rfl
  | invalid => rfl

theorem selectorOf_selected (s : BitVec 3) : selectorOf (selected s) = s := by revert s; decide

theorem exists_selectorOf_eq (s : BitVec 3) : ∃ x, selectorOf x = s := ⟨selected s, selectorOf_selected s⟩

@[simp] theorem selectorOf_reg_setWidth (r : Reg) : (selectorOf (.reg r)).setWidth 8 = r.number := by cases r <;> rfl

@[simp] theorem selectorOf_port_setWidth : (selectorOf .port).setWidth 8 = portNumber := rfl

/-- R64's number of a Move puts the two selectors below the class. -/
theorem encodeMove_setWidth (s d : BitVec 3) : encodeMove (s.setWidth 8) (d.setWidth 8) = 0b10#2 ++ s ++ d := by
  revert s d; decide

/-! ### Decoding, by class (R61 to R65) -/

theorem decode_of_class_literal {b : Byte} (h : classField b = 0b00#2) : decode b = .lit (imm6Field b) := by
  simp [decode, h]

theorem decode_of_class_conditional {b : Byte} (h : classField b = 0b01#2) :
    decode b = if midField b ≠ 0#3 then .illegalConditional else decodeJump (lowField b) := by
  simp [decode, h]

theorem decode_of_class_move {b : Byte} (h : classField b = 0b10#2) :
    decode b = decodeMove (midField b) (lowField b) := by
  simp [decode, h]

theorem decode_of_class_arithmetic {b : Byte} (h : classField b = 0b11#2) :
    decode b = if midField b ≠ 0#3 then .illegalArithmetic else decodeArith (lowField b) := by
  simp [decode, h]

/-- R62's byte of a literal. -/
theorem decode_literal (n : BitVec 6) : decode (0b00#2 ++ n) = .lit n := by
  rw [decode_of_class_literal (b := 0b00#2 ++ n) BitVec.extractLsb'_append_eq_left]
  exact congrArg Instr.lit BitVec.extractLsb'_append_eq_right

/-- R64's byte of a Move. -/
theorem decode_encodeMove (s d : BitVec 3) : decode (encodeMove (s.setWidth 8) (d.setWidth 8)) = decodeMove s d := by
  rw [encodeMove_setWidth, decode_of_class_move (classField_append _ s d), midField_append, lowField_append]

/-- The source selector is looked at first (D3). -/
theorem decodeMove_of_invalid_source (d : BitVec 3) : decodeMove 7#3 d = .illegalMoveFrom := rfl

theorem decodeMove_of_invalid_dest {s : BitVec 3} (source : s ≠ 7#3) : decodeMove s 7#3 = .illegalMoveTo := by
  obtain ⟨x, rfl⟩ := exists_selectorOf_eq s
  cases x with
  | reg r => cases r <;> rfl
  | port => rfl
  | invalid => exact absurd rfl source

/-! ### Encoding, by class -/

theorem encode_lit (n : BitVec 6) : encode (.lit n) = some (0b00#2 ++ n) :=
  congrArg some (BitVec.setWidth_eq_append (by decide))

theorem encode_decodeJump (p : BitVec 3) : encode (decodeJump p) = some (0b01#2 ++ 0#3 ++ p) := by revert p; decide

theorem encode_decodeArith (o : BitVec 3) : encode (decodeArith o) = some (0b11#2 ++ 0#3 ++ o) := by revert o; decide

theorem encode_decodeMove {s d : BitVec 3} (source : s ≠ 7#3) (dest : d ≠ 7#3) :
    encode (decodeMove s d) = some (0b10#2 ++ s ++ d) := by
  rw [← encodeMove_setWidth]
  obtain ⟨x, rfl⟩ := exists_selectorOf_eq s
  obtain ⟨y, rfl⟩ := exists_selectorOf_eq d
  cases x with
  | invalid => exact absurd rfl source
  | reg r =>
    cases y with
    | invalid => exact absurd rfl dest
    | reg q => simp [decodeMove, encode]
    | port => simp [decodeMove, encode]
  | port =>
    cases y with
    | invalid => exact absurd rfl dest
    | reg q => simp [decodeMove, encode]
    | port => simp [decodeMove, encode]

/-! ### Both directions (R72) -/

/-- The instructions with an encoding are the well-formed ones. -/
theorem encode_isSome (i : Instr) : (encode i).isSome = i.wellFormed := by cases i <;> rfl

theorem encode_eq_none_of_not_wellFormed {i : Instr} (h : i.wellFormed = false) : encode i = none :=
  Option.isNone_iff_eq_none.1 (Option.isSome_eq_false_iff.1 ((encode_isSome i).trans h))

theorem wellFormed_of_encode {i : Instr} {b : Byte} (h : encode i = some b) : i.wellFormed = true := by
  rw [← encode_isSome, h]
  rfl

/-- R72, the source's direction: a byte decodes to what it encodes. -/
theorem decode_of_encode {i : Instr} {b : Byte} (h : encode i = some b) : decode b = i := by
  cases i with
  | lit n => cases (encode_lit n).symm.trans h; exact decode_literal n
  | movRegReg r q => cases h; simpa [decodeMove] using decode_encodeMove (selectorOf (.reg r)) (selectorOf (.reg q))
  | movInReg q => cases h; simpa [decodeMove] using decode_encodeMove (selectorOf .port) (selectorOf (.reg q))
  | movRegOut r => cases h; simpa [decodeMove] using decode_encodeMove (selectorOf (.reg r)) (selectorOf .port)
  | movInOut => cases h; rfl
  | jnv | jez | jgz | jgez | jmp | jnz | jlez | jlz => cases h; rfl
  | add | and | or | xor | sub | nand | nor | xnor => cases h; rfl
  | illegalConditional | illegalMoveFrom | illegalMoveTo | illegalArithmetic => cases h

theorem classField_cases (b : Byte) :
    classField b = 0b00#2 ∨ classField b = 0b01#2 ∨ classField b = 0b10#2 ∨ classField b = 0b11#2 := by
  generalize classField b = c
  revert c
  decide

/-- R67 and R72 at once: a byte that meets none of R67's conditions is the encoding of what it decodes to, and a byte
that meets one decodes to its error. -/
theorem decode_cases (b : Byte) :
    (encode (decode b) = some b ∧ (classField b = 0b00#2 ∨ classField b = 0b01#2 ∧ midField b = 0#3 ∨
      classField b = 0b10#2 ∧ midField b ≠ 7#3 ∧ lowField b ≠ 7#3 ∨ classField b = 0b11#2 ∧ midField b = 0#3)) ∨
    (decode b = .illegalConditional ∧ classField b = 0b01#2 ∧ midField b ≠ 0#3) ∨
    (decode b = .illegalMoveFrom ∧ classField b = 0b10#2 ∧ midField b = 7#3) ∨
    (decode b = .illegalMoveTo ∧ classField b = 0b10#2 ∧ midField b ≠ 7#3 ∧ lowField b = 7#3) ∨
    (decode b = .illegalArithmetic ∧ classField b = 0b11#2 ∧ midField b ≠ 0#3) := by
  have whole := classField_append_midField_append_lowField b
  rcases classField_cases b with c | c | c | c
  · refine .inl ⟨?_, .inl c⟩
    rw [decode_of_class_literal c, encode_lit, ← c, classField_append_imm6Field]
  · by_cases mid : midField b = 0#3
    · refine .inl ⟨?_, .inr (.inl ⟨c, mid⟩)⟩
      rw [c, mid] at whole
      rw [decode_of_class_conditional c, if_neg (not_not.2 mid), encode_decodeJump, whole]
    · exact .inr (.inl ⟨by rw [decode_of_class_conditional c, if_pos mid], c, mid⟩)
  · rw [decode_of_class_move c]
    by_cases source : midField b = 7#3
    · exact .inr (.inr (.inl ⟨by rw [source, decodeMove_of_invalid_source], c, source⟩))
    · by_cases dest : lowField b = 7#3
      · exact .inr (.inr (.inr (.inl ⟨by rw [dest, decodeMove_of_invalid_dest source], c, source, dest⟩)))
      · rw [c] at whole
        exact .inl ⟨by rw [encode_decodeMove source dest, whole], .inr (.inr (.inl ⟨c, source, dest⟩))⟩
  · by_cases mid : midField b = 0#3
    · refine .inl ⟨?_, .inr (.inr (.inr ⟨c, mid⟩))⟩
      rw [c, mid] at whole
      rw [decode_of_class_arithmetic c, if_neg (not_not.2 mid), encode_decodeArith, whole]
    · exact .inr (.inr (.inr (.inr ⟨by rw [decode_of_class_arithmetic c, if_pos mid], c, mid⟩)))

/-- R72, the direction from bytes. -/
theorem encode_decode {b : Byte} (h : (decode b).wellFormed = true) : encode (decode b) = some b := by
  rcases decode_cases b with ⟨e, _⟩ | ⟨e, _⟩ | ⟨e, _⟩ | ⟨e, _⟩ | ⟨e, _⟩
  · exact e
  all_goals exact absurd (e ▸ h) nofun

theorem encode_ne_of_not_wellFormed {b : Byte} (h : (decode b).wellFormed = false) (i : Instr) : encode i ≠ some b := by
  intro e
  have legal := wellFormed_of_encode e
  rw [decode_of_encode e, legal] at h
  cases h

/-! ### The numbers of R72 -/

/-- `sel(Reg(k)) = k`. -/
theorem number_of_getElem? {k : Nat} {r : Reg} (h : [Reg.x0, .x1, .x2, .x3, .x4, .x5][k]? = some r) :
    r.number = BitVec.ofNat 8 k := by
  obtain ⟨lt, rfl⟩ := List.getElem?_eq_some_iff.1 h
  have lt_six : k < 6 := lt
  interval_cases k <;> rfl

/-- `Encode(Move)` of selectors as numbers. -/
theorem encodeMove_ofNat (s d : Nat) :
    encodeMove (BitVec.ofNat 8 s) (BitVec.ofNat 8 d) = BitVec.ofNat 8 (0x80 + 8 * s + d) := by
  rw [BitVec.ofNat_add, BitVec.ofNat_add, BitVec.ofNat_mul]
  rfl

theorem encode_lit_ofNat (n : BitVec 6) : encode (.lit n) = some (BitVec.ofNat 8 n.toNat) :=
  congrArg some (BitVec.ofNat_toNat 8 n).symm

/-- The four forms of a Move, from register `k` to register `l`. -/
theorem encode_move_ofNat {k l : Nat} {r q : Reg} (source : [Reg.x0, .x1, .x2, .x3, .x4, .x5][k]? = some r)
    (dest : [Reg.x0, .x1, .x2, .x3, .x4, .x5][l]? = some q) :
    encode (.movRegReg r q) = some (BitVec.ofNat 8 (0x80 + 8 * k + l)) ∧
    encode (.movInReg q) = some (BitVec.ofNat 8 (0x80 + 8 * 6 + l)) ∧
    encode (.movRegOut r) = some (BitVec.ofNat 8 (0x80 + 8 * k + 6)) ∧
    encode .movInOut = some (BitVec.ofNat 8 (0x80 + 8 * 6 + 6)) := by
  have port : portNumber = BitVec.ofNat 8 6 := rfl
  simp only [encode, number_of_getElem? source, number_of_getElem? dest, port, encodeMove_ofNat, and_self]

/-- Settles O1: both directions from the two facts above, and R72's numbers class by class. -/
theorem decodeEncodeAgree : Obligations.DecodeEncodeAgree := by
  refine ⟨fun i legal => ?_, fun b => encode_decode, fun i => encode_eq_none_of_not_wellFormed,
    fun b => encode_ne_of_not_wellFormed, encode_lit_ofNat, rfl, rfl, fun k l r q source dest => ?_⟩
  · obtain ⟨b, e⟩ := Option.isSome_iff_exists.1 ((encode_isSome i).trans legal)
    exact ⟨b, e, decode_of_encode e⟩
  · exact encode_move_ofNat source dest

/-! ### The map of the bytes (R67, R75) -/

/-- Settles O3: what a byte can decode to, its fields in numbers. -/
theorem decodeErrorsByTheirFields : Obligations.DecodeErrorsByTheirFields := by
  intro b
  have fields := decode_cases b
  simp only [← BitVec.toNat_inj, ne_eq, classField_toNat, midField_toNat, lowField_toNat, BitVec.toNat_ofNat] at fields
  rcases fields with ⟨e, legal⟩ | ⟨e, cond⟩ | ⟨e, cond⟩ | ⟨e, cond⟩ | ⟨e, cond⟩
  · have other {i : Instr} (illegal : i.wellFormed = false) : decode b ≠ i :=
      fun same => Bool.false_ne_true (illegal.symm.trans (same ▸ wellFormed_of_encode e))
    simp only [other (i := .illegalConditional) rfl, other (i := .illegalMoveFrom) rfl,
      other (i := .illegalMoveTo) rfl, other (i := .illegalArithmetic) rfl, false_iff]
    omega
  all_goals
    simp only [e, reduceCtorEq, true_iff, false_iff]
    omega

/-- Settles O2: a legal row from its encoding in R72, an illegal row from its condition in R67. The bytes named one by
one and the count are evaluated. -/
theorem opcodeMapOfAllBytes : Obligations.OpcodeMapOfAllBytes := by
  refine ⟨fun n lt => ?literal, rfl, fun n lt low high => ?conditional, fun s d r q source dest => ?moves, rfl,
    fun s lt => ?moveTo, fun n lt low high => ?moveFrom, rfl, fun n lt low => ?arithmetic, rfl⟩
  case literal =>
    have e := encode_lit_ofNat (BitVec.ofNat 6 n)
    rw [BitVec.toNat_ofNat, Nat.mod_eq_of_lt lt] at e
    exact decode_of_encode e
  case moves =>
    obtain ⟨regReg, inReg, regOut, _⟩ := encode_move_ofNat source dest
    rw [Nat.add_right_comm] at regOut
    exact ⟨decode_of_encode regReg, decode_of_encode inReg, decode_of_encode regOut⟩
  case conditional =>
    obtain ⟨row, _⟩ := decodeErrorsByTheirFields (BitVec.ofNat 8 n)
    exact row.2 (by rw [BitVec.toNat_ofNat]; omega)
  case moveFrom =>
    obtain ⟨_, row, _⟩ := decodeErrorsByTheirFields (BitVec.ofNat 8 n)
    exact row.2 (by rw [BitVec.toNat_ofNat]; omega)
  case moveTo =>
    obtain ⟨_, _, row, _⟩ := decodeErrorsByTheirFields (BitVec.ofNat 8 (0x87 + 8 * s))
    exact row.2 (by rw [BitVec.toNat_ofNat]; omega)
  case arithmetic =>
    obtain ⟨_, _, _, row⟩ := decodeErrorsByTheirFields (BitVec.ofNat 8 n)
    exact row.2 (by rw [BitVec.toNat_ofNat]; omega)

/-- Settles O4: each byte decoded. -/
theorem sampleBytesDecode : Obligations.SampleBytesDecode := by
  unfold Obligations.SampleBytesDecode
  decide

end Sys2Proof.Proofs.Encoding
end

section
/-!
What a transition leaves in the result register (spec/30_encoding.md R71; spec/44_step_engine.md R147;
spec/60_exceptions.md R173 to R175): a result of R147's table, `Halted`, a load's error, the value after a reset, or
what stood there.
-/

namespace Sys2Proof.Proofs.Results

open Sys2Proof Sys2Proof.Machine Sys2Proof.Proofs.Invariant

/-! ### The rows of R147 -/

theorem results_of_isJump {i : Instr} (h : i.isJump = true) : i.results = [.cont] := by
  cases i with
  | jnv | jez | jgz | jgez | jmp | jnz | jlez | jlz => rfl
  | _ => cases h

theorem exhausted_mem_results {i : Instr} (h : i.readsInput = true) :
    .suspendedForInput ∈ i.results ∧ .error .notEnoughInput ∈ i.results := by
  cases i with
  | movInReg d => simp [Instr.results]
  | movInOut => simp [Instr.results]
  | _ => cases h

theorem moveTo_outPort_result (v : Byte) (s : State) :
    (moveTo .outPort v s).result ∈ [.cont, .error .invalidUtf8Lexeme] := by
  rw [moveTo_outPort]
  show (if (portEffect s v).report then _ else _) ∈ _
  split
  · exact List.mem_cons_of_mem _ (List.mem_singleton_self _)
  · exact List.mem_cons_self

/-- An instruction's result stands in its row. -/
theorem exec_result_mem {i : Instr} {s t : State} (h : exec i s = .next t) : t.result ∈ i.results := by
  rcases exec_cases i s with ⟨_, _, _, row, e⟩ | ⟨jump, e⟩ | ⟨jump, e⟩ | ⟨_, _, _, rfl, _, e⟩ | ⟨v, rest, port, e⟩ |
    ⟨reads, _, _, e⟩ | ⟨reads, _, _, e⟩ | ⟨k, _, row, e⟩ <;> cases e.symm.trans h
  · exact row ▸ List.mem_singleton_self _
  · exact results_of_isJump jump ▸ List.mem_singleton_self _
  · exact results_of_isJump jump ▸ List.mem_singleton_self _
  · exact List.mem_cons_self
  · have written := moveTo_outPort_result v { s with inbuf := rest }
    rcases port with ⟨r, rfl, _⟩ | ⟨rfl, _⟩
    · exact written
    · exact List.mem_append_left [.suspendedForInput, .error .notEnoughInput] written
  · exact (exhausted_mem_results reads).1
  · exact (exhausted_mem_results reads).2
  · exact row ▸ List.mem_singleton_self _

/-! ### The turns of core and host -/

theorem engineStep_result_raisable {s t : State} (h : engineStep s = .next t) : t.result.raisable := by
  rcases engineStep_cases s with ⟨_, e⟩ | ⟨_, b, _, e⟩ | ⟨_, _, e⟩ <;> rw [e] at h
  · cases h; exact halted_raisable
  · exact results_raisable _ _ (exec_result_mem h)
  · cases h

theorem coreTurn_result_raisable {s t : State} (old : s.result.raisable) (h : coreTurn s = .next t) :
    t.result.raisable := by
  by_cases run : s.loaded = true ∧ s.mode ≠ .idle
  · exact engineStep_result_raisable ((coreTurn_of_run run.1 run.2).symm.trans h)
  · cases (if_neg run).symm.trans h
    exact old

/-- A load ends with one of its two errors or with a reset. -/
theorem loadMachine_result_raisable (prog input0 : List Byte) (m : InputMode) (s : State) :
    (loadMachine prog input0 m s).result.raisable := by
  rcases loadMachine_cases prog input0 m s with ⟨_, e⟩ | ⟨_, e⟩ | ⟨_, _, e⟩ <;> rw [e]
  · exact (error_raisable_iff .programIsEmpty).2 (by decide)
  · exact (error_raisable_iff .programIsTooLong).2 (by decide)
  · exact none_raisable

theorem commandEffect_result_raisable {c : Command} {s t : State} (old : s.result.raisable)
    (h : commandEffect c s = .next t) : t.result.raisable := by
  cases c with
  | load prog input0 m => cases h; exact loadMachine_result_raisable prog input0 m s
  | reset => cases h; exact none_raisable
  | stepOnce => exact engineStep_result_raisable h
  | runToCompletion => exact engineStep_result_raisable h
  | appendInput b =>
    cases h
    rcases appendInput_cases b s with ⟨_, e⟩ | ⟨_, e⟩ <;> rw [e] <;> exact old
  | abort => cases h; exact old

theorem hostTurn_result_raisable {c : Command} {s t : State} (old : s.result.raisable) (h : hostTurn c s = .next t) :
    t.result.raisable := by
  cases ok : accepted c s with
  | true => exact commandEffect_result_raisable old ((hostTurn_of_accepted ok).symm.trans h)
  | false =>
    cases (hostTurn_of_ignored ok).symm.trans h
    exact old

/-- Settles O48: by whose turn it is. -/
theorem unreachableErrorsNeverArise : Obligations.UnreachableErrorsNeverArise := by
  intro s t old h
  rcases step_cases s with ⟨_, e⟩ | ⟨_, _, e⟩ | ⟨_, rest, _, e⟩ | ⟨_, c, rest, _, e⟩ <;> rw [e] at h
  · exact coreTurn_result_raisable old h
  · exact coreTurn_result_raisable old h
  · exact coreTurn_result_raisable (s := { s with sched := rest }) old h
  · exact hostTurn_result_raisable (s := { s with sched := rest }) old h

end Sys2Proof.Proofs.Results
end

section
/-!
LIT (spec/40_load_literal.md R80, R81): what the literal of R62 is in the byte, and the one register it replaces.
-/

namespace Sys2Proof.Proofs.LoadLiteral

open Sys2Proof Sys2Proof.Machine Sys2Proof.Proofs.Encoding

/-- R80's class of bytes, `b >> 6 = 0`, is the class field `00` of R61. -/
theorem classField_eq_zero_of_ushiftRight {b : Byte} (h : b >>> 6 = 0) : classField b = 0b00#2 := by
  apply BitVec.eq_of_toNat_eq
  have shifted : b.toNat / 64 = 0 := by
    simpa [BitVec.toNat_ushiftRight, Nat.shiftRight_eq_div_pow] using congrArg BitVec.toNat h
  rw [classField_toNat, shifted]
  rfl

/-- The literal is zero-extended: it is the byte with bits 7 and 6 cleared. -/
theorem imm6Field_setWidth (b : Byte) : (imm6Field b).setWidth 8 = b &&& 0b111111 := by
  apply BitVec.eq_of_toNat_eq
  have masked : b.toNat &&& 63 = b.toNat % 64 := Nat.and_two_pow_sub_one_eq_mod b.toNat 6
  have below : b.toNat % 64 < 256 := (Nat.mod_lt _ (by decide)).trans (by decide)
  simp [imm6Field, masked, Nat.mod_eq_of_lt below]

/-- The whole next state of `LIT n`. -/
theorem exec_lit (n : BitVec 6) (s : State) :
    exec (.lit n) s = .next (endedNext { s with x := { s.x with x0 := n.setWidth 8 } }) :=
  congrArg Host.Outcome.next (continueNext_eq _)

/-- Settles O18: the literal as a number, and the byte's literal as its low six bits. -/
theorem loadLiteralResult : Obligations.LoadLiteralResult := by
  refine ⟨fun n s => ?_, fun b s literal => ?_⟩
  · rw [exec_lit, BitVec.ofNat_toNat]
  · rw [decode_of_class_literal (classField_eq_zero_of_ushiftRight literal), exec_lit, imm6Field_setWidth]

end Sys2Proof.Proofs.LoadLiteral
end

section
/-!
The Conditional-Jumps (spec/41_conditional_jump.md R90 to R101). Each is `condJump` of its predicate, so what a jump
does is settled by the predicate's value on `x[3]`.
-/

namespace Sys2Proof.Proofs.ConditionalJump

open Sys2Proof Sys2Proof.Machine

/-! ### The one jump of R90 -/

theorem condJump_of_true {p : Byte → Bool} {s : State} (h : p s.x.x3 = true) :
    condJump p s = ended .cont { s with pc := s.x.x0 } := by
  rcases condJump_cases p s with ⟨_, e⟩ | ⟨no, _⟩
  · exact e
  · exact absurd (h.symm.trans no) nofun

theorem condJump_of_false {p : Byte → Bool} {s : State} (h : p s.x.x3 = false) : condJump p s = endedNext s := by
  rcases condJump_cases p s with ⟨yes, _⟩ | ⟨_, e⟩
  · exact absurd (h.symm.trans yes) nofun
  · exact e

/-- The jump by the condition that its predicate stands for. -/
theorem next_condJump_eq_ite {p : Byte → Bool} {c : Prop} [Decidable c] {s : State} (h : p s.x.x3 = true ↔ c) :
    Host.Outcome.next (φ := Fault) (ρ := Refusal) (condJump p s) =
      if c then .next (ended .cont { s with pc := s.x.x0 }) else .next (endedNext s) := by
  split
  case isTrue holds => rw [condJump_of_true (h.2 holds)]
  case isFalse fails => rw [condJump_of_false (Bool.eq_false_iff.2 (mt h.1 fails))]

/-- A jump that is taken to anywhere but `pc + 1` is seen by its pc. -/
theorem condJump_eq_endedNext_iff {p : Byte → Bool} {s : State} (far : s.pc + 1 ≠ s.x.x0) :
    condJump p s = endedNext s ↔ p s.x.x3 = false := by
  refine ⟨fun h => Bool.eq_false_iff.2 fun taken => ?_, condJump_of_false⟩
  rw [condJump_of_true taken] at h
  exact far (congrArg State.pc h).symm

/-- R90 for every instruction of the class. -/
theorem exists_predicate {i : Instr} (h : i.isJump = true) :
    ∃ p : Byte → Bool, ∀ s, exec i s = .next (condJump p s) := by
  cases i with
  | jnv | jez | jgz | jgez | jmp | jnz | jlez | jlz => exact ⟨_, fun _ => rfl⟩
  | _ => cases h

/-! ### The predicates of R91 -/

theorem predEqualZero_iff (v : Byte) : predEqualZero v = true ↔ v.toNat = 0 :=
  decide_eq_true_iff.trans (BitVec.toNat_inj (y := 0)).symm

theorem predGreaterThanZero_iff (v : Byte) : predGreaterThanZero v = true ↔ 0 < v.toInt := by
  rw [predGreaterThanZero, decide_eq_true_iff, SignedReading.sgn8_eq_toInt]

theorem predGreaterOrEqualZero_iff (v : Byte) : predGreaterOrEqualZero v = true ↔ 0 ≤ v.toInt := by
  rw [predGreaterOrEqualZero, decide_eq_true_iff, SignedReading.sgn8_eq_toInt]

/-! ### The predicates with bit 2 of the field set, as the inverses they are by R92 -/

theorem predNotEqualZero_eq_not (v : Byte) : predNotEqualZero v = !predEqualZero v := decide_not

theorem predLessOrEqualZero_eq_not (v : Byte) : predLessOrEqualZero v = !predGreaterThanZero v :=
  (decide_eq_decide.2 Int.not_lt.symm).trans decide_not

theorem predLessThanZero_eq_not (v : Byte) : predLessThanZero v = !predGreaterOrEqualZero v :=
  (decide_eq_decide.2 Int.not_le.symm).trans decide_not

theorem predNotEqualZero_iff (v : Byte) : predNotEqualZero v = true ↔ v.toNat ≠ 0 := by
  rw [predNotEqualZero_eq_not, Bool.not_eq_true', ← Bool.not_eq_true, predEqualZero_iff]

theorem predLessOrEqualZero_iff (v : Byte) : predLessOrEqualZero v = true ↔ v.toInt ≤ 0 := by
  rw [predLessOrEqualZero_eq_not, Bool.not_eq_true', ← Bool.not_eq_true, predGreaterThanZero_iff, Int.not_lt]

theorem predLessThanZero_iff (v : Byte) : predLessThanZero v = true ↔ v.toInt < 0 := by
  rw [predLessThanZero_eq_not, Bool.not_eq_true', ← Bool.not_eq_true, predGreaterOrEqualZero_iff, Int.not_le]

/-- The signed reading on each side of R7's split. -/
theorem toInt_cases (v : Byte) :
    (v.toNat ≤ 127 ∧ v.toInt = v.toNat) ∨ (128 ≤ v.toNat ∧ v.toNat < 256 ∧ v.toInt = v.toNat - 256) := by
  rw [← SignedReading.sgn8_eq_toInt, sgn8]
  split
  case isTrue low => exact .inl ⟨low, rfl⟩
  case isFalse high => exact .inr ⟨by omega, v.isLt, rfl⟩

/-- R91's column of stored values. -/
theorem stored_values (v : Byte) :
    (0 < v.toInt ↔ 1 ≤ v.toNat ∧ v.toNat ≤ 127) ∧ (0 ≤ v.toInt ↔ v.toNat ≤ 127) ∧
    (v.toInt ≤ 0 ↔ v.toNat = 0 ∨ 128 ≤ v.toNat) ∧ (v.toInt < 0 ↔ 128 ≤ v.toNat) := by
  rcases toInt_cases v with ⟨_, _⟩ | ⟨_, _, _⟩ <;> omega

/-- Settles O19: each jump by what its predicate stands for. -/
theorem conditionalJumpResults : Obligations.ConditionalJumpResults :=
  ⟨rfl, fun s =>
    ⟨congrArg _ (condJump_of_false rfl),
      next_condJump_eq_ite (predEqualZero_iff _),
      next_condJump_eq_ite (predGreaterThanZero_iff _),
      next_condJump_eq_ite (predGreaterOrEqualZero_iff _),
      congrArg _ (condJump_of_true rfl),
      next_condJump_eq_ite (predNotEqualZero_iff _),
      next_condJump_eq_ite (predLessOrEqualZero_iff _),
      next_condJump_eq_ite (predLessThanZero_iff _),
      stored_values s.x.x3⟩⟩

/-! ### Inverse jumps and the target of an untaken jump -/

/-- Of two jumps with inverse predicates one is taken. -/
theorem condJump_inverse {p q : Byte → Bool} (inverse : ∀ v, q v = !p v) (s : State) :
    (condJump p s = ended .cont { s with pc := s.x.x0 } ∧ condJump q s = endedNext s) ∨
    (condJump p s = endedNext s ∧ condJump q s = ended .cont { s with pc := s.x.x0 }) := by
  rcases condJump_cases p s with ⟨yes, e⟩ | ⟨no, e⟩
  · exact .inl ⟨e, condJump_of_false (by rw [inverse, yes]; rfl)⟩
  · exact .inr ⟨e, condJump_of_true (by rw [inverse, no]; rfl)⟩

/-- Settles O21: by the four pairs of R92. -/
theorem predicateBitTwoInverts : Obligations.PredicateBitTwoInverts := by
  intro p s lt
  match p, lt with
  | 0, _ => exact ⟨_, _, rfl, rfl, condJump_inverse (p := predNever) (q := predAlways) (fun _ => rfl) s⟩
  | 1, _ => exact ⟨_, _, rfl, rfl, condJump_inverse predNotEqualZero_eq_not s⟩
  | 2, _ => exact ⟨_, _, rfl, rfl, condJump_inverse predLessOrEqualZero_eq_not s⟩
  | 3, _ => exact ⟨_, _, rfl, rfl, condJump_inverse predLessThanZero_eq_not s⟩

/-- Settles O45: the jump was not taken, and its predicate does not look at `x[0]`. -/
theorem untakenJumpIgnoresTarget : Obligations.UntakenJumpIgnoresTarget := by
  intro i s v jump goes far
  obtain ⟨p, meaning⟩ := exists_predicate jump
  have untaken : p s.x.x3 = false :=
    (condJump_eq_endedNext_iff far).1 (Host.Outcome.next.inj ((meaning s).symm.trans goes))
  exact (meaning _).trans (congrArg _ (condJump_of_false untaken))

/-! ### JMP where it is fetched -/

/-- A step of the engine at the byte of JMP. -/
theorem engineStep_jmp {s : State} (below : s.pc.toNat < s.plen) (fetched : s.prog.read s.pc.toNat = some 0x44) :
    engineStep s = .next (ended .cont { s with pc := s.x.x0 }) :=
  (engineStep_of_read below fetched).trans (congrArg _ (condJump_of_true (p := predAlways) rfl))

/-- The single-step command at the byte of JMP. -/
theorem step_stepOnce_jmp {s : State} {rest : List (Option Command)} (idle : s.mode = .idle) (loaded : s.loaded = true)
    (sched : s.sched = some .stepOnce :: rest) (below : s.pc.toNat < s.plen)
    (fetched : s.prog.read s.pc.toNat = some 0x44) :
    step s = .next { s with
      pc := s.x.x0, result := .cont, mode := .idle, snapshot := some ⟨s.x, s.x.x0, .cont⟩, sched := rest } := by
  rw [step_stepOnce idle loaded sched,
    engineStep_jmp (s := { s with sched := rest, mode := .singleStep }) below fetched]
  exact congrArg _ (ended_of_not_run _ _ nofun)

/-- The single-step command at or past the end of the program. -/
theorem step_stepOnce_of_end {s : State} {rest : List (Option Command)} (idle : s.mode = .idle)
    (loaded : s.loaded = true) (sched : s.sched = some .stepOnce :: rest) (past : s.plen ≤ s.pc.toNat) :
    step s = .next { s with
      result := .halted, mode := .idle, snapshot := some ⟨s.x, s.pc, .halted⟩, sched := rest } := by
  rw [step_stepOnce idle loaded sched,
    engineStep_of_end (s := { s with sched := rest, mode := .singleStep }) past]
  exact congrArg _ (ended_of_not_run _ _ nofun)

/-- Settles O22: the jump completes without a look at its target, and the next fetch finds it past the end. -/
theorem jumpPastEndThenHalts : Obligations.JumpPastEndThenHalts := fun _ idle loaded sched below fetched past =>
  ⟨_, step_stepOnce_jmp idle loaded sched below fetched, rfl, rfl, rfl, step_stepOnce_of_end rfl loaded rfl past⟩

/-- One step of a run at a JMP to itself. -/
theorem step_jmp_self {s : State} (run : s.mode = .runToCompletion) (loaded : s.loaded = true) (sched : s.sched = [])
    (below : s.pc.toNat < s.plen) (fetched : s.prog.read s.pc.toNat = some 0x44) (self : s.x.x0 = s.pc) :
    step s = .next { s with result := .cont, snapshot := some ⟨s.x, s.pc, .cont⟩ } := by
  rw [step_of_empty sched, coreTurn_of_run loaded (run ▸ nofun), engineStep_jmp below fetched, self]
  simp [ended, run]

/-- Settles O23: by induction on the steps; the state after the first is again at the jump. -/
theorem jumpToItselfNeverEnds : Obligations.JumpToItselfNeverEnds := by
  intro n s run loaded sched below fetched self
  induction n generalizing s with
  | zero => exact steps_succ (step_jmp_self run loaded sched below fetched self) 0
  | succ n ih =>
    have first := steps_succ (step_jmp_self run loaded sched below fetched self) (n + 1)
    exact first.trans (ih _ run loaded sched below fetched self)

end Sys2Proof.Proofs.ConditionalJump
end

section
/-!
The Moves (spec/42_move.md R110 to R115). Each is `move` of its operands, so what a Move does is what `move` does with
a register, with a byte at the input port, and with none there. A write that reports leaves the port empty, which is
what remains of it in the completed Move of decision D9.
-/

namespace Sys2Proof.Proofs.Moves

open Sys2Proof Sys2Proof.Machine Sys2Proof.Proofs.Encoding Sys2Proof.Proofs.Effects

/-! ### The bytes of R64 -/

/-- R113's byte: the port's selector is the low field of the number. -/
theorem encode_movRegOut (r : Reg) : encode (.movRegOut r) = some (0x86 + 8 * r.number) :=
  congrArg some (add_right_comm 0x80 (8 * r.number) portNumber)

/-! ### Register to register -/

theorem regFile_write_read_self (x : RegFile) (r : Reg) : x.write r (x.read r) = x := by
  cases r <;> rfl

theorem exec_movRegReg (r d : Reg) (s : State) :
    exec (.movRegReg r d) s = .next (endedNext { s with x := s.x.write d (s.x.read r) }) :=
  congrArg Host.Outcome.next (move_reg_reg r d s)

/-- Settles O27: a register written with its own value is as before. -/
theorem moveRegisterToRegister : Obligations.MoveRegisterToRegister := by
  refine fun r d s => ⟨decode_of_encode rfl, exec_movRegReg r d s, ?_⟩
  rintro rfl
  rw [exec_movRegReg, regFile_write_read_self]

/-! ### The empty input port -/

theorem move_inPort_suspends {s : State} (dst : Dest) (empty : s.inbuf = []) (m : s.inputMode = .interactive) :
    move .inPort dst s = ended .suspendedForInput s := by
  rw [move_inPort_of_nil dst empty, m, exhaustedResult]

theorem move_inPort_raises {s : State} (dst : Dest) (empty : s.inbuf = []) (m : s.inputMode = .buffered) :
    move .inPort dst s = ended (.error .notEnoughInput) s := by
  rw [move_inPort_of_nil dst empty, m, exhaustedResult]

/-! ### Input to register -/

/-- `MOV in -> xd` where a byte is there. -/
theorem exec_movInReg_of_cons {s : State} {b : Byte} {rest : List Byte} (d : Reg) (h : s.inbuf = b :: rest) :
    exec (.movInReg d) s = .next (endedNext { s with x := s.x.write d b, inbuf := rest }) :=
  congrArg Host.Outcome.next ((move_inPort_of_cons (.reg d) h).trans (continueNext_eq _))

/-- Settles O29: the byte that is there, or R112's two ways to end without one. -/
theorem moveInputToRegister : Obligations.MoveInputToRegister := fun d _ =>
  ⟨decode_of_encode rfl,
    fun _ _ h => exec_movInReg_of_cons d h,
    fun empty m => congrArg _ (move_inPort_suspends (.reg d) empty m),
    fun empty m => congrArg _ (move_inPort_raises (.reg d) empty m)⟩

/-! ### The output port -/

theorem exec_movRegOut (r : Reg) (s : State) : exec (.movRegOut r) s = .next (moveTo .outPort (s.x.read r) s) := rfl

/-- `MOV in -> out` where a byte is there: the write is done by the state that has lost it. -/
theorem exec_movInOut_of_cons {s : State} {b : Byte} {rest : List Byte} (h : s.inbuf = b :: rest) :
    exec .movInOut s = .next (moveTo .outPort b { s with inbuf := rest }) :=
  congrArg Host.Outcome.next (move_inPort_of_cons .outPort h)

/-- Settles O30: the end of a Move to the output port, with the register's value. -/
theorem moveRegisterToOutput : Obligations.MoveRegisterToOutput := fun r s =>
  ⟨decode_of_encode (encode_movRegOut r), congrArg Host.Outcome.next (moveTo_outPort (s.x.read r) s)⟩

/-- Settles O31: the end of a Move to the output port, with the byte that is there, or no write at all. -/
theorem moveInputToOutput : Obligations.MoveInputToOutput := fun _ =>
  ⟨decode_of_encode rfl,
    fun _ _ h => (exec_movInOut_of_cons h).trans (congrArg _ (moveTo_outPort _ _)),
    fun empty m => congrArg _ (move_inPort_suspends .outPort empty m),
    fun empty m => congrArg _ (move_inPort_raises .outPort empty m)⟩

/-! ### A write that reports -/

/-- R45: a report is the write that discards the accumulator. -/
theorem outWrite_of_report {valid : List Byte → Bool} {acc : List Byte} {b : Byte}
    (report : (outWrite valid acc b).report = true) : outWrite valid acc b = ⟨[], none, true⟩ := by
  rcases outWrite_cases valid acc b with ⟨_, _, flush⟩ | ⟨_, _, e⟩ | ⟨_, _, wait⟩
  · exact absurd (flush ▸ report) nofun
  · exact e
  · exact absurd (wait ▸ report) nofun

/-- After a report a run goes on without STOP_ON_UTF8_ERROR alone (R156). -/
theorem goesOn_report_iff (s : State) : goesOn s (.error .invalidUtf8Lexeme) ↔ s.stopOnUtf8 = false := by
  simp [goesOn]

/-- R115: the whole state after a Move whose write reports. -/
theorem moveTo_outPort_of_report {s : State} {v : Byte} (report : (portEffect s v).report = true) :
    moveTo .outPort v s =
      { s with
        acc := []
        pc := s.pc + 1
        result := .error .invalidUtf8Lexeme
        mode := if s.mode = .runToCompletion ∧ s.stopOnUtf8 = false then .runToCompletion else .idle
        snapshot := some ⟨s.x, s.pc + 1, .error .invalidUtf8Lexeme⟩ } := by
  have effect : portEffect s v = ⟨[], none, true⟩ := outWrite_of_report report
  rw [moveTo_outPort, effect]
  simp only [ended, goesOn_report_iff, if_true, Option.toList_none, List.append_nil]

/-- Settles O32: both forms end in the one write that reports; the input byte is gone before it. -/
theorem reportedMoveHasCompleted : Obligations.ReportedMoveHasCompleted := fun s =>
  ⟨fun r report => (exec_movRegOut r s).trans (congrArg _ (moveTo_outPort_of_report report)),
    fun _ rest h report => (exec_movInOut_of_cons h).trans
      (congrArg _ (moveTo_outPort_of_report (s := { s with inbuf := rest }) report))⟩

end Sys2Proof.Proofs.Moves
end

section
/-!
The Arithmetic class (spec/43_arithmetic.md R120 to R132). Each operation is `arith` of its wide function, so what it
stores is the residue of the wide result modulo 256. Whether bit 7 of a stored difference tells the order is a fact
about that residue alone, one for the signed and the unsigned reading.
-/

namespace Sys2Proof.Proofs.Arithmetic

open Sys2Proof Sys2Proof.Machine Sys2Proof.Proofs.ConditionalJump

/-! ### The normalisation of R121 -/

/-- The added 256 does not change the residue, whatever the wide result. -/
theorem normalise_toNat (m : Int) : ((normalise m).toNat : Int) = m % 256 := by
  have residue : (if m < 0 then m + 256 else m) % 256 = m % 256 := by split <;> omega
  rw [normalise, residue, BitVec.toNat_ofInt]
  omega

/-- Settles O25: the residue is right outside the range as well. -/
theorem normalisationIsModulo256 : Obligations.NormalisationIsModulo256 := fun m _ _ => normalise_toNat m

/-- A wide result is stored as any number with its residue. -/
theorem normalise_eq_ofNat {m : Int} {v : Nat} (residue : m % 256 = (v : Int) % 256) :
    normalise m = BitVec.ofNat 8 v := by
  have stored := normalise_toNat m
  apply BitVec.eq_of_toNat_eq
  rw [BitVec.toNat_ofNat]
  omega

/-- The wide complement of R128 to R130 is stored as the bitwise one. -/
theorem normalise_complement (v : Byte) : normalise (-(v.toNat : Int) - 1) = BitVec.ofNat 8 (255 - v.toNat) :=
  normalise_eq_ofNat (by have := v.isLt; omega)

/-! ### The operations of R122 -/

theorem normalise_wideAdd (a c : Byte) : normalise (wideAdd a c) = BitVec.ofNat 8 ((a.toNat + c.toNat) % 256) :=
  normalise_eq_ofNat (by rw [wideAdd]; omega)

/-- The borrow of R127, in natural numbers. -/
theorem normalise_wideSub (a c : Byte) :
    normalise (wideSub a c) =
      BitVec.ofNat 8 (if c.toNat ≤ a.toNat then a.toNat - c.toNat else 256 + a.toNat - c.toNat) := by
  have := c.isLt
  apply normalise_eq_ofNat
  rw [wideSub]
  split <;> omega

/-- The whole next state of an operation, by the byte its normalised result is. -/
theorem next_arith {f : Byte → Byte → Int} {s : State} {v : Byte} (stored : normalise (f s.x.x1 s.x.x2) = v) :
    Host.Outcome.next (φ := Fault) (ρ := Refusal) (arith f s) =
      .next (endedNext { s with x := { s.x with x3 := v } }) := by
  rw [arith_eq, stored]

/-- Settles O24: each operation by what its wide result is stored as; AND, OR and XOR have no residue to take. -/
theorem arithmeticResults : Obligations.ArithmeticResults :=
  ⟨rfl, fun _ =>
    ⟨next_arith (normalise_wideAdd _ _),
      next_arith (normalise_eq_ofNat rfl),
      next_arith (normalise_eq_ofNat rfl),
      next_arith (normalise_eq_ofNat rfl),
      next_arith (normalise_wideSub _ _),
      next_arith (normalise_complement _),
      next_arith (normalise_complement _),
      next_arith (normalise_complement _)⟩⟩

/-! ### SUB as a comparison (R132) -/

theorem toInt_emod (v : Byte) : v.toInt % 256 = (v.toNat : Int) % 256 := by
  rcases toInt_cases v with ⟨_, low⟩ | ⟨_, _, high⟩ <;> omega

/-- The difference of the signed readings has the same residue as that of the stored values. -/
theorem normalise_wideSub_toNat_signed (a c : Byte) :
    ((normalise (wideSub a c)).toNat : Int) = (a.toInt - c.toInt) % 256 := by
  rw [normalise_toNat, wideSub, Int.sub_emod, ← toInt_emod, ← toInt_emod, ← Int.sub_emod]

theorem toInt_sub_toInt_bounds (a c : Byte) : -256 < a.toInt - c.toInt ∧ a.toInt - c.toInt < 256 := by
  obtain ⟨read_a, low_a, high_a⟩ := SignedReading.signedReadingIsTwosComplement a
  obtain ⟨read_c, low_c, high_c⟩ := SignedReading.signedReadingIsTwosComplement c
  omega

theorem normalise_wideSub_eq_zero_iff (a c : Byte) : (normalise (wideSub a c)).toNat = 0 ↔ a = c := by
  have stored := normalise_toNat (wideSub a c)
  rw [wideSub] at stored
  have := a.isLt
  have := c.isLt
  rw [← BitVec.toNat_inj, wideSub]
  omega

/-- Bit 7 of the residue of a difference of two bytes is its sign exactly when no wrap has moved it. -/
theorem bit7_eq_sign_iff {d : Int} (above : -256 < d) (below : d < 256) :
    ((128 ≤ d % 256 ↔ d < 0) ↔ -128 ≤ d ∧ d ≤ 127) := by
  by_cases negative : d < 0
  · have wrapped : d % 256 = d + 256 := by omega
    omega
  · have kept : d % 256 = d := by omega
    omega

/-- R132 for either reading of the operands: only the residue and the range of their difference count. -/
theorem bit7_eq_order_iff {n : Nat} {a c : Int} (residue : (n : Int) = (a - c) % 256) (above : -256 < a - c)
    (below : a - c < 256) : ((128 ≤ n ↔ a < c) ↔ -128 ≤ a - c ∧ a - c ≤ 127) := by
  rw [← bit7_eq_sign_iff above below, ← residue, sub_neg, Nat.ofNat_le_cast]

/-- Where a jump leaves the pc, by the condition that its predicate stands for. -/
theorem condJump_pc {p : Byte → Bool} {c : Prop} [Decidable c] {s : State} (h : p s.x.x3 = true ↔ c) :
    (condJump p s).pc = if c then s.x.x0 else s.pc + 1 := by
  rcases condJump_cases p s with ⟨taken, e⟩ | ⟨untaken, e⟩
  · rw [e, if_pos (h.1 taken)]
    rfl
  · rw [e, if_neg (mt h.2 (Bool.eq_false_iff.1 untaken))]
    rfl

theorem exec_sub (s : State) :
    exec .sub s = .next (endedNext { s with x := { s.x with x3 := normalise (wideSub s.x.x1 s.x.x2) } }) :=
  next_arith rfl

/-- Settles O26: the equality jumps test the difference for zero, and the sign jump its bit 7. -/
theorem subtractThenCompare : Obligations.SubtractThenCompare := by
  intro s
  have equal := normalise_wideSub_eq_zero_iff s.x.x1 s.x.x2
  refine ⟨_, _, _, _, exec_sub s, rfl, rfl, rfl, ?jez, ?jnz, ?jlz, ?signed, ?unsigned⟩
  case jez => exact condJump_pc ((predEqualZero_iff _).trans equal)
  case jnz => exact (condJump_pc ((predNotEqualZero_iff _).trans equal.not)).trans (ite_not ..)
  case jlz =>
    obtain ⟨_, _, _, bit7⟩ := stored_values (normalise (wideSub s.x.x1 s.x.x2))
    exact condJump_pc ((predLessThanZero_iff _).trans bit7)
  case signed =>
    obtain ⟨above, below⟩ := toInt_sub_toInt_bounds s.x.x1 s.x.x2
    exact bit7_eq_order_iff (normalise_wideSub_toNat_signed _ _) above below
  case unsigned =>
    have := s.x.x1.isLt
    have := s.x.x2.isLt
    rw [← Nat.cast_lt (α := Int)]
    exact bit7_eq_order_iff (normalise_toNat _) (by omega) (by omega)

end Sys2Proof.Proofs.Arithmetic
end

section
/-!
The step engine (spec/44_step_engine.md R141 to R148): the ways into it, the halt, the fatal errors, and the bounds on
what one instruction does.
-/

namespace Sys2Proof.Proofs.Engine

open Sys2Proof Sys2Proof.Machine Sys2Proof.Proofs.Effects

/-! ### The ways into the engine (R141, R153, R154) -/

/-- Every transition that takes a step, by what the engine does whatever the mode and the schedule. -/
theorem step_of_engineStep {s : State} {meaning : State → Host.Outcome State Fault Refusal} (loaded : s.loaded = true)
    (runs : ∀ m q, engineStep { s with mode := m, sched := q } = meaning { s with mode := m, sched := q }) :
    (s.mode = .runToCompletion → s.sched = [] → step s = meaning s) ∧
    (∀ rest, s.mode = .runToCompletion → s.sched = none :: rest → step s = meaning { s with sched := rest }) ∧
    (∀ rest, s.mode = .idle → s.sched = some .stepOnce :: rest →
      step s = meaning { s with mode := .singleStep, sched := rest }) ∧
    (∀ rest, s.mode = .idle → s.sched = some .runToCompletion :: rest →
      step s = meaning { s with mode := .runToCompletion, sched := rest }) ∧
    (s.mode = .singleStep → step s = meaning s) := by
  have core (q : List (Option Command)) (busy : s.mode ≠ .idle) :
      coreTurn { s with sched := q } = meaning { s with sched := q } :=
    (coreTurn_of_run (s := { s with sched := q }) loaded busy).trans (runs s.mode q)
  refine ⟨fun run sched => ?_, fun rest run sched => ?_, fun rest idle sched => ?_, fun rest idle sched => ?_,
    fun inside => ?_⟩
  · exact (step_of_empty sched).trans (core s.sched (run ▸ nofun))
  · exact (step_of_pass (run ▸ nofun) sched).trans (core rest (run ▸ nofun))
  · exact (step_stepOnce idle loaded sched).trans (runs .singleStep rest)
  · have ok : accepted .runToCompletion s = true := by simp [accepted, idle, loaded]
    exact (HostCommands.step_of_accepted (idle ▸ nofun) sched ok).trans (runs .runToCompletion rest)
  · have turn : step s = coreTurn s := if_pos inside
    exact turn.trans (core s.sched (inside ▸ nofun))

/-- Settles O12: neither the mode nor the schedule has a part in the fetch. -/
theorem stepRunsTheDecodedInstruction : Obligations.StepRunsTheDecodedInstruction := fun _ _ loaded below fetched =>
  step_of_engineStep loaded fun _ _ => engineStep_of_read below fetched

/-! ### The results of an instruction (R147) -/

/-- Settles O47: every instruction has a next state, and its result stands in the instruction's row. -/
theorem resultsByInstruction : Obligations.ResultsByInstruction := fun i s =>
  (exec_next i s).imp fun _ h => ⟨h, Results.exec_result_mem h⟩

theorem halted_not_mem_results (i : Instr) : .halted ∉ i.results := by
  cases i <;> simp [Instr.results]

/-! ### The halt (R142) -/

/-- Settles O13: the halt test comes before the fetch, and `Halted` stands in no row of R147. -/
theorem fetchPastEndHalts : Obligations.FetchPastEndHalts :=
  ⟨fun _ loaded past =>
      step_of_engineStep (meaning := fun a => .next (ended .halted a)) loaded fun _ _ => engineStep_of_end past,
    fun i _ _ h halted => halted_not_mem_results i (halted ▸ Results.exec_result_mem h)⟩

/-- A single step leaves the controller in the Idle it was commanded from. -/
theorem ended_of_commanded {s : State} (r : StepResult) (idle : s.mode = .idle) :
    ended r { s with mode := .singleStep } = { s with result := r, snapshot := some ⟨s.x, s.pc, r⟩ } :=
  (ended_of_not_run r { s with mode := .singleStep } nofun).trans (by rw [← idle])

theorem step_stepOnce_halts {s : State} {rest : List (Option Command)} (idle : s.mode = .idle)
    (loaded : s.loaded = true) (sched : s.sched = some .stepOnce :: rest) (past : s.plen ≤ s.pc.toNat) :
    step s = .next { s with result := .halted, snapshot := some ⟨s.x, s.pc, .halted⟩, sched := rest } := by
  rw [step_stepOnce idle loaded sched, engineStep_of_end (s := { s with sched := rest, mode := .singleStep }) past]
  exact congrArg _ (ended_of_commanded (s := { s with sched := rest }) .halted idle)

/-- Settles O14: by induction on the steps; each leaves the pc past the end and the controller in Idle. -/
theorem haltedStaysHalted : Obligations.HaltedStaysHalted := by
  intro n s idle loaded past sched
  induction n generalizing s with
  | zero => exact steps_succ (step_stepOnce_halts idle loaded sched past) 0
  | succ n ih =>
    have first := steps_succ (step_stepOnce_halts idle loaded sched past) (n + 1)
    exact first.trans (ih _ idle loaded past rfl)

/-! ### The fatal errors (R148, R183) -/

/-- An instruction that ends with a fatal error has only ended: the one error after an effect is the one that is not
fatal. -/
theorem eq_ended_of_fatal {i : Instr} {s t : State} {k : ErrorKind} (h : exec i s = .next t)
    (failed : t.result = .error k) (fatal : k.fatal = true) : t = ended (.error k) s := by
  rcases exec_cases i s with ⟨_, _, _, _, e⟩ | ⟨_, e⟩ | ⟨_, e⟩ | ⟨_, _, _, _, _, e⟩ | ⟨v, rest, _, e⟩ |
    ⟨_, _, _, e⟩ | ⟨_, _, _, e⟩ | ⟨_, _, _, e⟩ <;> cases e.symm.trans h
  case inr.inr.inr.inr.inl =>
    have written := Results.moveTo_outPort_result v { s with inbuf := rest }
    rw [failed] at written
    obtain rfl : k = .invalidUtf8Lexeme := by simpa using written
    exact nomatch fatal
  all_goals cases failed
  all_goals rfl

/-- The same fatal error on every state that agrees on what the instruction reads. -/
theorem exec_fatal_again {i : Instr} {s t a : State} {k : ErrorKind} (h : exec i s = .next t)
    (failed : t.result = .error k) (fatal : k.fatal = true) (same : Agree i s a) :
    exec i a = .next (ended (.error k) a) := by
  obtain ⟨c, _, runs⟩ := exec_makesOneChange i s
  cases (runs s (.refl i s)).symm.trans h
  rw [runs a same, ← eq_ended_of_fatal (runs a same) failed fatal]

/-- A step of the engine that ends with a fatal error ends so whatever the last result, the snapshot and the
schedule. -/
theorem engineStep_fatal_again {s t : State} {k : ErrorKind} (h : engineStep s = .next t) (failed : t.result = .error k)
    (fatal : k.fatal = true) (r : StepResult) (sn : Option Snapshot) (q : List (Option Command)) :
    engineStep { s with result := r, snapshot := sn, sched := q } =
      .next (ended (.error k) { s with result := r, snapshot := sn, sched := q }) := by
  rcases engineStep_cases s with ⟨_, e⟩ | ⟨below, b, fetched, e⟩ | ⟨_, _, e⟩ <;> rw [e] at h
  · cases h; cases failed
  · have decoded : engineStep { s with result := r, snapshot := sn, sched := q } =
        exec (decode b) { s with result := r, snapshot := sn, sched := q } := engineStep_of_read below fetched
    exact decoded.trans (exec_fatal_again h failed fatal { Agree.refl (decode b) s with })
  · cases h

/-- A single step that ends with a fatal error ends so, with nothing changed, whatever the last result, the snapshot
and the schedule after it. -/
theorem step_fatal_again {s t : State} {k : ErrorKind} {rest : List (Option Command)} (idle : s.mode = .idle)
    (loaded : s.loaded = true) (sched : s.sched = some .stepOnce :: rest) (h : step s = .next t)
    (failed : t.result = .error k) (fatal : k.fatal = true) (r : StepResult) (sn : Option Snapshot)
    (q : List (Option Command)) :
    step { s with result := r, snapshot := sn, sched := some .stepOnce :: q } =
      .next { s with result := .error k, snapshot := some ⟨s.x, s.pc, .error k⟩, sched := q } := by
  have again := engineStep_fatal_again ((step_stepOnce idle loaded sched).symm.trans h) failed fatal r sn q
  have ends := ended_of_commanded (s := { s with result := r, snapshot := sn, sched := q }) (.error k) idle
  have command := step_stepOnce (s := { s with result := r, snapshot := sn, sched := some .stepOnce :: q }) idle loaded
    rfl
  exact command.trans (again.trans (congrArg _ ends))

/-- Settles O15: the step is the same from the machine as it is and from the machine the first step leaves. -/
theorem fatalErrorsRepeat : Obligations.FatalErrorsRepeat := by
  intro s t k idle loaded sched h failed fatal
  have again := step_fatal_again idle loaded sched h failed fatal
  have first := again s.result s.snapshot [some .stepOnce]
  rw [← sched] at first
  cases h.symm.trans first
  exact ⟨rfl, again _ _ []⟩

/-! ### The bounds on one instruction (R146) -/

theorem exec_writes_at_most_one {i : Instr} {s t : State} (h : exec i s = .next t) :
    ∃ r, ∀ q, q ≠ r → t.x.read q = s.x.read q := by
  obtain ⟨c, fits, runs⟩ := exec_makesOneChange i s
  cases (runs s (.refl i s)).symm.trans h
  rcases fits with ⟨unwritten, _⟩ | ⟨d, v, written, _⟩
  · have kept : c.regs s.x = s.x := by rw [Change.regs, unwritten]; rfl
    exact ⟨.x0, fun q _ => congrArg (·.read q) kept⟩
  · have stored : c.regs s.x = s.x.write d v := by rw [Change.regs, written]; rfl
    exact ⟨d, fun q other => (congrArg (·.read q) stored).trans (regFile_read_write_ne s.x d q v other)⟩

/-- The schedule is the host's. -/
theorem exec_sched {i : Instr} {s t : State} (h : exec i s = .next t) : t.sched = s.sched := by
  obtain ⟨c, _, runs⟩ := exec_makesOneChange i s
  cases (runs s (.refl i s)).symm.trans h
  rfl

/-- A byte is taken by an instruction that reads the input port, and it is the first. -/
theorem exec_inbuf_cases {i : Instr} {s t : State} (h : exec i s = .next t) :
    t.inbuf = s.inbuf ∨ i.readsInput = true ∧ ∃ b, s.inbuf = b :: t.inbuf := by
  rcases exec_cases i s with ⟨_, _, _, _, e⟩ | ⟨_, e⟩ | ⟨_, e⟩ | ⟨_, b, rest, rfl, taken, e⟩ | ⟨v, rest, port, e⟩ |
    ⟨_, _, _, e⟩ | ⟨_, _, _, e⟩ | ⟨_, _, _, e⟩ <;> cases e.symm.trans h
  case inr.inr.inr.inl => exact .inr ⟨rfl, b, taken⟩
  case inr.inr.inr.inr.inl =>
    rw [moveTo_outPort]
    rcases port with ⟨_, _, _, kept⟩ | ⟨rfl, taken⟩
    · exact .inl kept
    · exact .inr ⟨rfl, v, taken⟩
  all_goals exact .inl rfl

/-- A fragment is delivered by a write to the output port, one at the most. -/
theorem exec_out_cases {i : Instr} {s t : State} (h : exec i s = .next t) :
    t.out = s.out ∨ ∃ c, t.out = s.out ++ [c] := by
  rcases exec_cases i s with ⟨_, _, _, _, e⟩ | ⟨_, e⟩ | ⟨_, e⟩ | ⟨_, _, _, _, _, e⟩ | ⟨v, rest, _, e⟩ |
    ⟨_, _, _, e⟩ | ⟨_, _, _, e⟩ | ⟨_, _, _, e⟩ <;> cases e.symm.trans h
  case inr.inr.inr.inr.inl =>
    have written : (moveTo .outPort v { s with inbuf := rest }).out = s.out ++ (portEffect s v).frag.toList := by
      rw [moveTo_outPort]; rfl
    rw [written]
    cases (portEffect s v).frag with
    | none => exact .inl (List.append_nil _)
    | some c => exact .inr ⟨c, rfl⟩
  all_goals exact .inl rfl

/-- The pc stays where a step suspends or fails fatally; elsewhere than to the next index only a jump takes it. -/
theorem exec_pc_cases {i : Instr} {s t : State} (h : exec i s = .next t) :
    t.pc = s.pc ∨ t.pc = s.pc + 1 ∨ i.isJump = true ∧ t.pc = s.x.x0 := by
  rcases exec_cases i s with ⟨_, _, _, _, e⟩ | ⟨jump, e⟩ | ⟨_, e⟩ | ⟨_, _, _, _, _, e⟩ | ⟨v, rest, _, e⟩ |
    ⟨_, _, _, e⟩ | ⟨_, _, _, e⟩ | ⟨_, _, _, e⟩ <;> cases e.symm.trans h
  · exact .inr (.inl rfl)
  · exact .inr (.inr ⟨jump, rfl⟩)
  · exact .inr (.inl rfl)
  · exact .inr (.inl rfl)
  · rw [moveTo_outPort]
    exact .inr (.inl rfl)
  · exact .inl rfl
  · exact .inl rfl
  · exact .inl rfl

/-- Settles O46: the bounds one by one, with the launch kept as one value. -/
theorem stepEffectsAreBounded : Obligations.StepEffectsAreBounded := by
  intro i s t h
  have kept := Launch.exec_launch h
  simp only [Launch.launch, Prod.mk.injEq] at kept
  obtain ⟨prog, plen, input0, inputMode, stopOnUtf8, utf8Table, loaded⟩ := kept
  exact ⟨exec_writes_at_most_one h, exec_inbuf_cases h, exec_out_cases h, exec_pc_cases h, prog, plen, loaded, input0,
    inputMode, stopOnUtf8, utf8Table, exec_sched h⟩

end Sys2Proof.Proofs.Engine
end

section
/-!
The controller (spec/45_run_driver.md R150 to R162): the commands that do not run the core, what the end of a step
tells the host, and that a run and single steps are the same steps. The last rests on `engineStep_makesOneChange`: the
mode and the schedule have no part in what the engine does, only in what the controller does after it.
-/

namespace Sys2Proof.Proofs.RunDriver

open Sys2Proof Sys2Proof.Machine Sys2Proof.Proofs.HostCommands Sys2Proof.Proofs.Effects

/-! ### Commands that take no step (R152, R159, R161) -/

/-- Settles O11: the core has no turn in Idle. -/
theorem idleIsFrozen : Obligations.IdleIsFrozen := fun _ idle =>
  ⟨fun sched => (step_of_empty sched).trans (coreTurn_of_rest (.inr idle)),
    fun _ sched => (step_of_pass (not_singleStep_of_idle idle) sched).trans (coreTurn_of_rest (.inr idle))⟩

/-- Settles O10: an abort is accepted during a run, and its effect is the mode alone. -/
theorem abortOnlyReturnsToIdle : Obligations.AbortOnlyReturnsToIdle := fun _ _ run sched =>
  step_of_accepted (run ▸ nofun) sched (decide_eq_true run)

/-- R161's table, read for what it does not accept. -/
theorem accepted_eq_false {c : Command} {s : State} (abort : c = .abort → s.mode ≠ .runToCompletion)
    (other : c ≠ .abort → s.mode ≠ .idle ∨ ((c = .stepOnce ∨ c = .runToCompletion) ∧ s.loaded = false)) :
    accepted c s = false := by
  cases c with
  | abort => exact decide_eq_false (abort rfl)
  | stepOnce | runToCompletion =>
    rcases other nofun with busy | ⟨_, unloaded⟩
    · exact Bool.and_eq_false_imp.2 fun idle => absurd (of_decide_eq_true idle) busy
    · exact (congrArg _ unloaded).trans (Bool.and_false _)
  | load | reset | appendInput =>
    rcases other nofun with busy | ⟨step | run, _⟩
    · exact decide_eq_false busy
    · cases step
    · cases run

/-! ### What a change leaves, and what the controller makes of it (R153, R154, R162) -/

theorem apply_loaded (c : Change) (s : State) : (c.apply s).loaded = s.loaded := rfl

theorem apply_sched (c : Change) (s : State) : (c.apply s).sched = s.sched := rfl

theorem apply_snapshot (c : Change) (s : State) :
    (c.apply s).snapshot = some ⟨(c.apply s).x, (c.apply s).pc, (c.apply s).result⟩ := rfl

/-- The mode after a change: the run going on, or Idle. -/
theorem apply_mode_cases (c : Change) (s : State) :
    ((c.apply s).mode = .runToCompletion ∧ s.mode = .runToCompletion ∧ goesOn s c.result) ∨
    ((c.apply s).mode = .idle ∧ ¬ (s.mode = .runToCompletion ∧ goesOn s c.result)) :=
  ended_mode_cases _ _

theorem apply_mode_ne_singleStep (c : Change) (s : State) : (c.apply s).mode ≠ .singleStep := by
  rcases apply_mode_cases c s with ⟨e, _⟩ | ⟨e, _⟩ <;> rw [e] <;> exact nofun

/-- A change made inside a single step is the change made in any mode, with the return to Idle after it. -/
theorem apply_singleStep (c : Change) (s : State) (q : List (Option Command)) :
    c.apply { s with mode := .singleStep, sched := q } = { c.apply s with mode := .idle, sched := q } :=
  ended_of_not_run _ _ nofun

theorem exists_change_of_exec {i : Instr} {s t : State} (h : exec i s = .next t) : ∃ c : Change, t = c.apply s := by
  obtain ⟨c, _, runs⟩ := exec_makesOneChange i s
  cases (runs s (.refl i s)).symm.trans h
  exact ⟨c, rfl⟩

/-- Settles O52: the end of a step shows the state the step's change leaves. -/
theorem snapshotShowsTheStep : Obligations.SnapshotShowsTheStep := by
  intro i s t h
  obtain ⟨c, rfl⟩ := exists_change_of_exec h
  exact apply_snapshot c s

/-- Settles O53: by the two ways the controller goes on after a change. -/
theorem runGoesOnByResultAndParameter : Obligations.RunGoesOnByResultAndParameter := by
  intro i s t h
  obtain ⟨c, rfl⟩ := exists_change_of_exec h
  rcases apply_mode_cases c s with ⟨on, run, goes⟩ | ⟨idle, ends⟩
  · exact ⟨fun _ => ⟨fun _ => goes, fun _ => on⟩, fun off => absurd on off, fun off => absurd run off⟩
  · refine ⟨fun run => ⟨fun on => ?_, fun goes => absurd ⟨run, goes⟩ ends⟩, fun _ => idle, fun _ => idle⟩
    exact absurd (idle.symm.trans on) nofun

/-! ### The engine, whatever the mode and the schedule -/

/-- A step of the engine makes one change, the same in every mode and under every schedule. -/
theorem engineStep_makesOneChange {s t : State} (h : engineStep s = .next t) :
    ∃ c : Change, t = c.apply s ∧ ∀ m q,
      engineStep { s with mode := m, sched := q } = .next (c.apply { s with mode := m, sched := q }) := by
  rcases engineStep_cases s with ⟨past, e⟩ | ⟨below, b, fetched, e⟩ | ⟨_, _, e⟩ <;> rw [e] at h
  · cases h
    have halts (m : RunMode) (q : List (Option Command)) :=
      stay_apply .halted (a := { s with mode := m, sched := q }) { Agree.refl .jnv s with }
    exact ⟨stay .halted s, (halts s.mode s.sched).symm,
      fun m q => (engineStep_of_end (s := { s with mode := m, sched := q }) past).trans
        (congrArg _ (halts m q).symm)⟩
  · obtain ⟨c, _, runs⟩ := exec_makesOneChange (decode b) s
    cases (runs s (.refl _ s)).symm.trans h
    exact ⟨c, rfl, fun m q => (engineStep_of_read (s := { s with mode := m, sched := q }) below fetched).trans
      (runs { s with mode := m, sched := q } { Agree.refl (decode b) s with })⟩
  · cases h

theorem none_not_mem_results (i : Instr) : .none ∉ i.results := by
  cases i <;> simp [Instr.results]

/-- The result of a step is never the value from before any step. -/
theorem engineStep_result_ne_none {s t : State} (h : engineStep s = .next t) : t.result ≠ .none := by
  rcases engineStep_cases s with ⟨_, e⟩ | ⟨_, b, _, e⟩ | ⟨_, _, e⟩ <;> rw [e] at h
  · cases h; exact nofun
  · exact fun unset => none_not_mem_results (decode b) (unset ▸ Results.exec_result_mem h)
  · cases h

/-- Settles O42: the invariant gives the next state, and it is that of a step of the engine inside a single step. -/
theorem stepCommandProducesResult : Obligations.StepCommandProducesResult := by
  intro s rest inv idle loaded sched
  obtain ⟨t, next, _⟩ := Invariant.everyStepKeepsTheInvariant s inv
  have engine := (step_stepOnce idle loaded sched).symm.trans next
  have produced := engineStep_result_ne_none engine
  obtain ⟨c, rfl, _⟩ := engineStep_makesOneChange engine
  exact ⟨_, next, produced, congrArg State.mode (apply_singleStep c s rest), apply_sched c _, apply_snapshot c _⟩

/-! ### Mode SingleStep is never seen between steps (R161) -/

theorem engineStep_mode_ne_singleStep {s t : State} (h : engineStep s = .next t) : t.mode ≠ .singleStep := by
  obtain ⟨c, rfl, _⟩ := engineStep_makesOneChange h
  exact apply_mode_ne_singleStep c s

theorem coreTurn_mode_ne_singleStep {s t : State} (outside : s.mode ≠ .singleStep) (h : coreTurn s = .next t) :
    t.mode ≠ .singleStep := by
  by_cases run : s.loaded = true ∧ s.mode ≠ .idle
  · exact engineStep_mode_ne_singleStep ((coreTurn_of_run run.1 run.2).symm.trans h)
  · cases (if_neg run).symm.trans h
    exact outside

/-- A failed load leaves the mode, a load that succeeds resets it. -/
theorem loadMachine_mode_ne_singleStep {s : State} (prog input0 : List Byte) (m : InputMode)
    (outside : s.mode ≠ .singleStep) : (loadMachine prog input0 m s).mode ≠ .singleStep := by
  rcases loadMachine_cases prog input0 m s with ⟨_, e⟩ | ⟨_, e⟩ | ⟨_, _, e⟩ <;> rw [e]
  · exact outside
  · exact outside
  · exact nofun

theorem commandEffect_mode_ne_singleStep {c : Command} {s t : State} (outside : s.mode ≠ .singleStep)
    (h : commandEffect c s = .next t) : t.mode ≠ .singleStep := by
  cases c with
  | load prog input0 m => cases h; exact loadMachine_mode_ne_singleStep prog input0 m outside
  | reset => cases h; exact nofun
  | stepOnce => exact engineStep_mode_ne_singleStep h
  | runToCompletion => exact engineStep_mode_ne_singleStep h
  | appendInput b =>
    cases h
    rcases appendInput_cases b s with ⟨_, e⟩ | ⟨_, e⟩ <;> rw [e] <;> exact outside
  | abort => cases h; exact nofun

theorem hostTurn_mode_ne_singleStep {c : Command} {s t : State} (outside : s.mode ≠ .singleStep)
    (h : hostTurn c s = .next t) : t.mode ≠ .singleStep := by
  cases ok : accepted c s with
  | true => exact commandEffect_mode_ne_singleStep outside ((hostTurn_of_accepted ok).symm.trans h)
  | false =>
    cases (hostTurn_of_ignored ok).symm.trans h
    exact outside

theorem step_mode_ne_singleStep {s t : State} (outside : s.mode ≠ .singleStep) (h : step s = .next t) :
    t.mode ≠ .singleStep := by
  rcases step_cases s with ⟨inside, _⟩ | ⟨_, _, e⟩ | ⟨_, rest, _, e⟩ | ⟨_, c, rest, _, e⟩
  · exact absurd inside outside
  · exact coreTurn_mode_ne_singleStep outside (e.symm.trans h)
  · exact coreTurn_mode_ne_singleStep (s := { s with sched := rest }) outside (e.symm.trans h)
  · exact hostTurn_mode_ne_singleStep (s := { s with sched := rest }) outside (e.symm.trans h)

/-- Settles O8: what R161 does not accept is ignored, and the turns keep out of mode SingleStep. -/
theorem commandsOutsideTheirModeIgnored : Obligations.CommandsOutsideTheirModeIgnored :=
  ⟨fun _ _ _ outside sched abort other => step_of_ignored outside sched (accepted_eq_false abort other),
    fun _ _ => step_mode_ne_singleStep⟩

/-! ### A run and single steps (R155) -/

/-- The single-step command makes the change of a step of a run. -/
theorem step_stepOnce_of_engineStep {s t : State} (loaded : s.loaded = true) (h : engineStep s = .next t)
    (q : List (Option Command)) :
    step { s with mode := .idle, sched := some .stepOnce :: q } = .next { t with mode := .idle, sched := q } := by
  obtain ⟨c, rfl, everywhere⟩ := engineStep_makesOneChange h
  have command := step_stepOnce (s := { s with mode := .idle, sched := some .stepOnce :: q }) rfl loaded rfl
  exact command.trans ((everywhere .singleStep q).trans (congrArg _ (apply_singleStep c s q)))

/-- The transition of a run that the host leaves alone. -/
theorem step_of_running {s : State} (loaded : s.loaded = true) (run : s.mode = .runToCompletion)
    (sched : s.sched = []) : step s = engineStep s :=
  (step_of_empty sched).trans (coreTurn_of_run loaded (run ▸ nofun))

/-- The command of a run makes the transition of the run that it starts. -/
theorem step_runToCompletion {s : State} (idle : s.mode = .idle) (loaded : s.loaded = true) :
    step { s with sched := [some .runToCompletion] } = step { s with mode := .runToCompletion, sched := [] } := by
  obtain ⟨_, _, _, command, _⟩ := Engine.step_of_engineStep (s := { s with sched := [some .runToCompletion] })
    (meaning := engineStep) loaded fun _ _ => rfl
  exact (command [] idle rfl).trans
    (step_of_running (s := { s with mode := .runToCompletion, sched := [] }) loaded rfl rfl).symm

/-- A run of one more step, taken apart. -/
theorem exists_step_of_steps_succ {n : Nat} {s a : State} (h : steps (n + 1) s = .next a) :
    ∃ t, step s = .next t ∧ steps n t = .next a := by
  cases first : step s with
  | next t => exact ⟨t, rfl, (steps_succ first n).symm.trans h⟩
  | fault r => simp [steps, first] at h
  | refused r => simp [steps, first] at h

theorem steps_succ_congr {s t : State} (h : step s = step t) (n : Nat) : steps (n + 1) s = steps (n + 1) t := by
  simp only [steps, h]

/-- By induction on the steps of a run: after each, the machine that is stepped singly is the running one put into
Idle. -/
theorem steps_single_of_run {n : Nat} {s a : State} (loaded : s.loaded = true) (sched : s.sched = [])
    (h : steps n s = .next a) (runs : ∀ k c, k < n → steps k s = .next c → c.mode = .runToCompletion) :
    steps n { s with mode := .idle, sched := List.replicate n (some .stepOnce) } = .next { a with mode := .idle } := by
  induction n generalizing s with
  | zero =>
    cases h
    rw [List.replicate_zero, ← sched]
    rfl
  | succ n ih =>
    obtain ⟨t, first, others⟩ := exists_step_of_steps_succ h
    have run : s.mode = .runToCompletion := runs 0 s n.succ_pos rfl
    have engine := (step_of_running loaded run sched).symm.trans first
    have single := step_stepOnce_of_engineStep loaded engine (List.replicate n (some .stepOnce))
    have runs_on (k : Nat) (c : State) (lt : k < n) (hc : steps k t = .next c) : c.mode = .runToCompletion :=
      runs (k + 1) c (Nat.succ_lt_succ lt) ((steps_succ first k).trans hc)
    obtain ⟨c, rfl, _⟩ := engineStep_makesOneChange engine
    exact (steps_succ single n).trans
      (ih ((apply_loaded c s).trans loaded) ((apply_sched c s).trans sched) others runs_on)

/-- Settles O54: the command of the run is replaced by the run itself, which is then stepped singly. -/
theorem runIsRepeatedSingleSteps : Obligations.RunIsRepeatedSingleSteps := by
  intro n s a idle loaded h runs
  have started := steps_succ_congr (step_runToCompletion idle loaded)
  have single := steps_single_of_run (s := { s with mode := .runToCompletion, sched := [] }) loaded rfl
    ((started n).symm.trans h) fun k c lt hc => by
      cases k with
      | zero => cases hc; rfl
      | succ k => exact runs (k + 1) c k.succ_pos (Nat.le_of_lt_succ lt) ((started k).trans hc)
  have start (q : List (Option Command)) : { s with sched := q } = { s with mode := .idle, sched := q } := by rw [idle]
  exact (congrArg _ (start _)).trans single

/-! ### Suspension and resumption (R112, R157) -/

section
variable {s : State} {d : Reg} {c : Byte} {rest : List (Option Command)}
  (idle : s.mode = .idle) (loaded : s.loaded = true) (below : s.pc.toNat < s.plen)
  (fetched : s.prog.read s.pc.toNat = some c) (decoded : decode c = .movInReg d)
  (sched : s.sched = some .stepOnce :: rest)
include idle loaded below fetched decoded sched

/-- The single-step command where the byte at the pc is a Move from the input to a register. -/
theorem step_stepOnce_movInReg : step s = exec (.movInReg d) { s with mode := .singleStep, sched := rest } := by
  obtain ⟨_, _, single, _⟩ := Engine.stepRunsTheDecodedInstruction s c loaded below fetched
  rw [single rest idle sched, decoded]

/-- With no byte there, in interactive mode. -/
theorem step_stepOnce_suspends (interactive : s.inputMode = .interactive) (empty : s.inbuf = []) :
    step s = .next
      { s with result := .suspendedForInput, snapshot := some ⟨s.x, s.pc, .suspendedForInput⟩, sched := rest } := by
  have suspends := Moves.move_inPort_suspends (s := { s with mode := .singleStep, sched := rest }) (.reg d) empty
    interactive
  have ends := Engine.ended_of_commanded (s := { s with sched := rest }) .suspendedForInput idle
  exact (step_stepOnce_movInReg idle loaded below fetched decoded sched).trans (congrArg _ (suspends.trans ends))

/-- With a byte there. -/
theorem step_stepOnce_completes {b : Byte} {left : List Byte} (there : s.inbuf = b :: left) :
    step s = .next
      { s with
        x := s.x.write d b
        pc := s.pc + 1
        inbuf := left
        result := .cont
        snapshot := some ⟨s.x.write d b, s.pc + 1, .cont⟩
        sched := rest } := by
  have moves := Moves.exec_movInReg_of_cons (s := { s with mode := .singleStep, sched := rest }) d there
  have ends := Engine.ended_of_commanded
    (s := { s with x := s.x.write d b, pc := s.pc + 1, inbuf := left, sched := rest }) .cont idle
  exact (step_stepOnce_movInReg idle loaded below fetched decoded sched).trans (moves.trans (congrArg _ ends))

end

/-- Settles O55: the suspension leaves the Move to be fetched again, and the append puts its byte there. -/
theorem suspendThenResume : Obligations.SuspendThenResume := by
  intro s d b c idle loaded interactive empty below fetched decoded sched
  have suspended := step_stepOnce_suspends idle loaded below fetched decoded sched interactive empty
  have appended := step_append_interactive (b := b) (rest := [some .stepOnce])
    (s := { s with
      result := .suspendedForInput
      snapshot := some ⟨s.x, s.pc, .suspendedForInput⟩
      sched := [some (.appendInput b), some .stepOnce] }) idle interactive rfl
  have completed := step_stepOnce_completes (rest := []) (left := [])
    (s := { s with
      result := .suspendedForInput
      snapshot := some ⟨s.x, s.pc, .suspendedForInput⟩
      inbuf := s.inbuf ++ [b]
      sched := [some .stepOnce] }) idle loaded below fetched decoded rfl (congrArg (· ++ [b]) empty)
  have resumed := (steps_succ suspended 2).trans ((steps_succ appended 1).trans (steps_succ completed 0))
  exact ⟨⟨_, suspended, rfl, rfl, rfl, rfl, empty⟩, _, resumed, rfl, rfl, rfl, rfl, rfl, idle⟩

end Sys2Proof.Proofs.RunDriver
end

section
/-!
The exceptions (spec/60_exceptions.md R176 to R183): a fatal error and a suspension end a run and are all that their
step does; where the suspension arises; the bytes that raise the decode errors.
-/

namespace Sys2Proof.Proofs.Exceptions

open Sys2Proof Sys2Proof.Machine

/-! ### The results that end a run (R156, R157) -/

/-- After a result that no run goes on after, the controller is in Idle whatever the mode was. -/
theorem ended_of_not_goesOn {r : StepResult} {s : State} (ends : ¬ goesOn s r) :
    ended r s = { s with result := r, mode := .idle, snapshot := some ⟨s.x, s.pc, r⟩ } := by
  simp only [ended, ends, and_false, if_false]

theorem not_goesOn_of_fatal {k : ErrorKind} {s : State} (fatal : k.fatal = true) : ¬ goesOn s (.error k) := by
  rintro (cont | ⟨report, _⟩)
  · cases cont
  · cases report
    exact nomatch fatal

theorem not_goesOn_suspended (s : State) : ¬ goesOn s .suspendedForInput := by
  rintro (cont | ⟨report, _⟩)
  · cases cont
  · cases report

/-- Settles O16: a step that fails fatally has only ended, and its result ends a run. -/
theorem fatalErrorChangesNothing : Obligations.FatalErrorChangesNothing := fun _ _ _ _ h failed fatal =>
  (Engine.eq_ended_of_fatal h failed fatal).trans (ended_of_not_goesOn (not_goesOn_of_fatal fatal))

/-! ### The suspension (R181) -/

/-- Where an instruction suspends, and that it has then only ended. -/
theorem exhausted_of_suspended {i : Instr} {s t : State} (h : exec i s = .next t)
    (suspended : t.result = .suspendedForInput) :
    (i.readsInput = true ∧ s.inputMode = .interactive ∧ s.inbuf = []) ∧ t = ended .suspendedForInput s := by
  rcases exec_cases i s with ⟨_, _, _, _, e⟩ | ⟨_, e⟩ | ⟨_, e⟩ | ⟨_, _, _, _, _, e⟩ | ⟨v, rest, _, e⟩ |
    ⟨reads, empty, interactive, e⟩ | ⟨_, _, _, e⟩ | ⟨_, _, _, e⟩ <;> cases e.symm.trans h
  case inr.inr.inr.inr.inl =>
    have written := Results.moveTo_outPort_result v { s with inbuf := rest }
    rw [suspended] at written
    exact absurd written (by decide)
  case inr.inr.inr.inr.inr.inl => exact ⟨⟨reads, interactive, empty⟩, rfl⟩
  all_goals cases suspended

/-- Both Moves from the input port suspend on an empty interactive input. -/
theorem exec_of_exhausted {i : Instr} {s : State} (reads : i.readsInput = true)
    (interactive : s.inputMode = .interactive) (empty : s.inbuf = []) : exec i s = .next (ended .suspendedForInput s) := by
  cases i with
  | movInReg d => exact congrArg _ (Moves.move_inPort_suspends (.reg d) empty interactive)
  | movInOut => exact congrArg _ (Moves.move_inPort_suspends .outPort empty interactive)
  | _ => cases reads

/-- Settles O17: both directions of the condition, and a suspended step has only ended. -/
theorem suspensionChangesNothing : Obligations.SuspensionChangesNothing := by
  refine fun i s t h => ⟨⟨fun suspended => (exhausted_of_suspended h suspended).1, ?_⟩, fun suspended => ?_⟩
  · rintro ⟨reads, interactive, empty⟩
    cases (exec_of_exhausted reads interactive empty).symm.trans h
    rfl
  · exact (exhausted_of_suspended h suspended).2.trans (ended_of_not_goesOn (not_goesOn_suspended s))

/-! ### The decode errors (R176 to R179) -/

/-- An instruction whose row of R147 is one error raises it and does nothing else. -/
theorem exec_of_results_error {i : Instr} {k : ErrorKind} (row : i.results = [.error k]) (s : State) :
    exec i s = .next (ended (.error k) s) := by
  cases i with
  | illegalConditional | illegalMoveFrom | illegalMoveTo | illegalArithmetic =>
    cases row
    exact congrArg _ (raise_eq _ s)
  | _ => cases row

/-- The seven bytes of R178 are Moves from a register or the port to the selector that names nothing. -/
theorem illegalMoveTo_fields : ∀ b ∈ [(0x87 : Byte), 0x8F, 0x97, 0x9F, 0xA7, 0xAF, 0xB7],
    b.toNat / 64 = 2 ∧ b.toNat / 8 % 8 ≠ 7 ∧ b.toNat % 8 = 7 := by decide

/-- Settles O33: the ranges of bytes meet the conditions of R67, and a decode error has one result. -/
theorem illegalBytesRaiseTheirError : Obligations.IllegalBytesRaiseTheirError := by
  refine ⟨fun s => ⟨exec_of_results_error rfl s, exec_of_results_error rfl s, exec_of_results_error rfl s,
    exec_of_results_error rfl s⟩, fun b s => ?_⟩
  obtain ⟨conditional, moveFrom, moveTo, arithmetic⟩ := Encoding.decodeErrorsByTheirFields b
  have below : b.toNat < 256 := b.isLt
  refine ⟨fun low high => ?_, fun low high => ?_, fun mem => ?_, fun low => ?_⟩
  · rw [conditional.2 (by omega), exec_of_results_error rfl]
  · rw [moveFrom.2 (by omega), exec_of_results_error rfl]
  · rw [moveTo.2 (illegalMoveTo_fields b mem), exec_of_results_error rfl]
  · rw [arithmetic.2 (by omega), exec_of_results_error rfl]

end Sys2Proof.Proofs.Exceptions
end

section
/-!
The reset command (spec/70_reset_and_hazards.md R200) and what the input mode of a launch decides (R203): no
instruction looks at it but a Move from the input port, and that one only where the buffer is empty.
-/

namespace Sys2Proof.Proofs.ResetAndInputMode

open Sys2Proof Sys2Proof.Machine Sys2Proof.Proofs.HostCommands

/-! ### The reset command -/

theorem step_reset {s : State} {rest : List (Option Command)} (idle : s.mode = .idle)
    (sched : s.sched = some .reset :: rest) : step s = .next (resetMachine { s with sched := rest }) :=
  step_of_accepted (not_singleStep_of_idle idle) sched (decide_eq_true idle)

/-- Settles O6: the command is accepted in Idle, and the model's reset leaves the snapshot as it was. -/
theorem resetCommandRestores : Obligations.ResetCommandRestores := fun s _ idle sched =>
  ⟨s.snapshot, step_reset idle sched⟩

/-! ### The input mode, class by class -/

theorem condJump_inputMode (p : Byte → Bool) (m : InputMode) (s : State) :
    condJump p { s with inputMode := m } = { condJump p s with inputMode := m } := by
  rcases condJump_cases p s with ⟨taken, e⟩ | ⟨untaken, e⟩ <;> rw [e]
  · exact ConditionalJump.condJump_of_true (s := { s with inputMode := m }) taken
  · exact ConditionalJump.condJump_of_false (s := { s with inputMode := m }) untaken

theorem moveTo_inputMode (dst : Dest) (v : Byte) (m : InputMode) (s : State) :
    moveTo dst v { s with inputMode := m } = { moveTo dst v s with inputMode := m } := by
  cases dst with
  | reg d => rfl
  | outPort =>
    rw [moveTo_outPort, moveTo_outPort]
    rfl

/-- A Move, from a register or from the input port with a byte there (R110). -/
theorem move_inputMode {s : State} {b : Byte} {rest : List Byte} (src : Source) (dst : Dest) (m : InputMode)
    (there : s.inbuf = b :: rest) :
    move src dst { s with inputMode := m } = { move src dst s with inputMode := m } := by
  cases src with
  | reg r => exact moveTo_inputMode dst (s.x.read r) m s
  | inPort =>
    rw [Effects.move_inPort_of_cons dst there]
    exact (Effects.move_inPort_of_cons (s := { s with inputMode := m }) dst there).trans
      (moveTo_inputMode dst b m { s with inbuf := rest })

/-- Settles O50: by the class of the instruction; what neither jumps nor moves never looks at the input mode. -/
theorem inputModesAgreeOnBytes : Obligations.InputModesAgreeOnBytes := by
  intro i s m nonempty
  obtain ⟨b, rest, there⟩ := List.exists_cons_of_ne_nil nonempty
  cases i with
  | jnv | jez | jgz | jgez | jmp | jnz | jlez | jlz => exact ⟨_, rfl, congrArg _ (condJump_inputMode _ m s)⟩
  | movRegReg | movInReg | movRegOut | movInOut => exact ⟨_, rfl, congrArg _ (move_inputMode _ _ m there)⟩
  | lit | add | and | or | xor | sub | nand | nor | xnor => exact ⟨_, rfl, rfl⟩
  | illegalConditional | illegalMoveFrom | illegalMoveTo | illegalArithmetic => exact ⟨_, rfl, rfl⟩

end Sys2Proof.Proofs.ResetAndInputMode
end
